-- ==== Sys2Proof/Word.lean ====
section
/-! DEFINITION. The word types of the CORE (00_scope.md R5, R8): a nibble is 4 bits, a byte 8 bits, an address 16 bits, an
ALU-ROM key 12 bits. Every value is unsigned and wraps at its own width, which is `BitVec`'s own arithmetic. -/

namespace Sys2Proof

/-- A 4-bit unsigned value: the contents of a register slot, a slot index, an immediate (R8, R20). -/
abbrev Nib := BitVec 4

/-- An 8-bit byte of main memory, of the ALU ROM, or an instruction (R5). -/
abbrev Byte := BitVec 8

/-- A 16-bit main-memory address, and the program counter (R5, R30, R32). -/
abbrev Addr := BitVec 16

/-- A 12-bit index of the ALU ROM (R34, R81). -/
abbrev RomKey := BitVec 12

end Sys2Proof
end

