-- ==== Sys2Proof/Syntax.lean ====
section
/-! DEFINITION. The instructions: one constructor per row of spec/opcode_table.json (30_encoding.md R63, R64). -/

namespace Sys2Proof

/-- An instruction. Register operands are slot indices; which role a slot has is `REG_MAP`'s business (R70). -/
inductive Instr where
  /-- LDI n (R100). -/
  | ldi (n : Nib)
  /-- MEMRD, command 0 (R121). -/
  | memrd
  /-- MEMWR, command 1 (R122). -/
  | memwr
  /-- INCA, command 2 (R123). -/
  | inca
  /-- DECA, command 3 (R124). -/
  | deca
  /-- JMP, command 4 (R140). -/
  | jmp
  /-- JZ, command 5 (R141). -/
  | jz
  /-- JAL, command 6 (R142). -/
  | jal
  /-- CMD7, a reserved command (R160). -/
  | cmd7
  /-- CMD8, a reserved command (R160). -/
  | cmd8
  /-- CMD9, a reserved command (R160). -/
  | cmd9
  /-- CMD10, a reserved command (R160). -/
  | cmd10
  /-- CMD11, a reserved command (R160). -/
  | cmd11
  /-- CMD12, a reserved command (R160). -/
  | cmd12
  /-- CMD13, a reserved command (R160). -/
  | cmd13
  /-- BRK, command 14 (R161). -/
  | brk
  /-- HALT, command 15 (R162). -/
  | halt
  /-- MOV d, ALU (R102). -/
  | movalu (d : Nib)
  /-- MOV d, s (R101). -/
  | mov (d s : Nib)
deriving DecidableEq, Repr

end Sys2Proof
end

