-- ==== Sys2Proof/WellFormed.lean ====
section
/-! DEFINITION. Which terms of `Instr` are instructions: the "constraints" column of spec/opcode_table.json (30_encoding.md
R65). Destination 5 is LDI's, destination 15 is a command's, source 15 is MOVALU's. -/

namespace Sys2Proof

/-- A destination index of MOV or MOVALU: neither 5 nor 15 (R65). -/
def isMoveDst (d : Nib) : Bool := d != 5 && d != 15

/-- A source index of MOV: not 15 (R65). -/
def isMoveSrc (s : Nib) : Bool := s != 15

/-- The term stands for an instruction byte. -/
def Instr.wellFormed : Instr → Bool
  | .movalu d => isMoveDst d
  | .mov d s => isMoveDst d && isMoveSrc s
  | .ldi _ => true
  | .memrd => true
  | .memwr => true
  | .inca => true
  | .deca => true
  | .jmp => true
  | .jz => true
  | .jal => true
  | .cmd7 => true
  | .cmd8 => true
  | .cmd9 => true
  | .cmd10 => true
  | .cmd11 => true
  | .cmd12 => true
  | .cmd13 => true
  | .brk => true
  | .halt => true

end Sys2Proof
end

