-- ==== Sys2Proof/Decode.lean ====
section
/-! DEFINITION. Decoding (30_encoding.md R62 to R69) and, after it, encoding. Every byte is an instruction, so the only thing
the decoder rejects is an empty list of bytes. -/

namespace Sys2Proof

/-! ### The decoder -/

/-- `src = byte[7:4]` (R62). -/
def srcField (b : Byte) : Nib := b.extractLsb' 4 4

/-- `dst = byte[3:0]` (R62). -/
def dstField (b : Byte) : Nib := b.extractLsb' 0 4

/-- The command table of R64, indexed by the source nibble. -/
def commandInstr (k : Nib) : Instr :=
  match k.toNat with
  | 0 => .memrd
  | 1 => .memwr
  | 2 => .inca
  | 3 => .deca
  | 4 => .jmp
  | 5 => .jz
  | 6 => .jal
  | 7 => .cmd7
  | 8 => .cmd8
  | 9 => .cmd9
  | 10 => .cmd10
  | 11 => .cmd11
  | 12 => .cmd12
  | 13 => .cmd13
  | 14 => .brk
  | _ => .halt

/-- The case analysis of R63, in its order: destination 5, destination 15, source 15, plain move. -/
def decodeByte (b : Byte) : Instr :=
  if dstField b = 5 then .ldi (srcField b)
  else if dstField b = 15 then commandInstr (srcField b)
  else if srcField b = 15 then .movalu (dstField b)
  else .mov (dstField b) (srcField b)

/-- Why a list of bytes is no instruction. -/
inductive DecodeError where
  /-- There is no byte to decode. No byte value is rejected (R66). -/
  | noBytes
deriving DecidableEq, Repr

/-- Read one instruction from the front of a list of bytes, and give the rest back (R68: an instruction is one byte). -/
def decode : List Byte → Except DecodeError (Instr × List Byte)
  | [] => .error .noBytes
  | b :: rest => .ok (decodeByte b, rest)

/-- The bytes of a number whose bit 0 is the least significant bit of the first byte. -/
def bytesOfNat : Nat → Nat → List Byte
  | 0, _ => []
  | n + 1, w => BitVec.ofNat 8 w :: bytesOfNat n (w / 256)

/-- What the decoder reads from an instruction of `nbits` bits whose bits are `w`, laid out as the hardware stores it. An
instruction is exactly one byte (R68), so bytes left over mean that `w` is no single instruction. -/
def decodeTableWord (nbits w : Nat) : Option Instr :=
  match decode (bytesOfNat (nbits / 8) w) with
  | .ok (i, []) => some i
  | .ok (_, _ :: _) => none
  | .error _ => none

/-! ### The encoder -/

/-- The byte with the given two fields (R65). -/
def fieldsByte (src dst : Nib) : Byte := src.setWidth 8 <<< 4 ||| dst.setWidth 8

/-- The byte of an instruction, from the encodings of R64, R67 and R100 to R162. -/
def encode : Instr → Byte
  | .ldi n => fieldsByte n 5
  | .memrd => 0x0F
  | .memwr => 0x1F
  | .inca => 0x2F
  | .deca => 0x3F
  | .jmp => 0x4F
  | .jz => 0x5F
  | .jal => 0x6F
  | .cmd7 => 0x7F
  | .cmd8 => 0x8F
  | .cmd9 => 0x9F
  | .cmd10 => 0xAF
  | .cmd11 => 0xBF
  | .cmd12 => 0xCF
  | .cmd13 => 0xDF
  | .brk => 0xEF
  | .halt => 0xFF
  | .movalu d => fieldsByte 15 d
  | .mov d s => fieldsByte s d

/-! ### The rows of spec/opcode_table.json -/

/-- A row of the table: the byte belongs to the row when `byte &&& mask = pattern` and the row's constraints hold. -/
structure OpcodeRow where
  mnemonic : String
  pattern : Byte
  mask : Byte
  /-- The row has the constraints `dst != 5` and `dst != 15`. -/
  dstConstrained : Bool
  /-- The row has the constraint `src != 15`. -/
  srcConstrained : Bool
deriving DecidableEq, Repr

/-- The byte belongs to the row. -/
def OpcodeRow.selects (r : OpcodeRow) (b : Byte) : Bool :=
  b &&& r.mask == r.pattern && (!r.dstConstrained || isMoveDst (dstField b)) &&
    (!r.srcConstrained || isMoveSrc (srcField b))

/-- The row of spec/opcode_table.json that an instruction comes from. -/
def Instr.row : Instr → OpcodeRow
  | .ldi _ => ⟨"LDI", 0x05, 0x0F, false, false⟩
  | .memrd => ⟨"MEMRD", 0x0F, 0xFF, false, false⟩
  | .memwr => ⟨"MEMWR", 0x1F, 0xFF, false, false⟩
  | .inca => ⟨"INCA", 0x2F, 0xFF, false, false⟩
  | .deca => ⟨"DECA", 0x3F, 0xFF, false, false⟩
  | .jmp => ⟨"JMP", 0x4F, 0xFF, false, false⟩
  | .jz => ⟨"JZ", 0x5F, 0xFF, false, false⟩
  | .jal => ⟨"JAL", 0x6F, 0xFF, false, false⟩
  | .cmd7 => ⟨"CMD7", 0x7F, 0xFF, false, false⟩
  | .cmd8 => ⟨"CMD8", 0x8F, 0xFF, false, false⟩
  | .cmd9 => ⟨"CMD9", 0x9F, 0xFF, false, false⟩
  | .cmd10 => ⟨"CMD10", 0xAF, 0xFF, false, false⟩
  | .cmd11 => ⟨"CMD11", 0xBF, 0xFF, false, false⟩
  | .cmd12 => ⟨"CMD12", 0xCF, 0xFF, false, false⟩
  | .cmd13 => ⟨"CMD13", 0xDF, 0xFF, false, false⟩
  | .brk => ⟨"BRK", 0xEF, 0xFF, false, false⟩
  | .halt => ⟨"HALT", 0xFF, 0xFF, false, false⟩
  | .movalu _ => ⟨"MOVALU", 0xF0, 0xF0, true, false⟩
  | .mov _ _ => ⟨"MOV", 0x00, 0x00, true, true⟩

/-- The 19 rows of the table. -/
def opcodeTable : List OpcodeRow :=
  [Instr.row (.ldi 0), Instr.row .memrd, Instr.row .memwr, Instr.row .inca, Instr.row .deca, Instr.row .jmp,
   Instr.row .jz, Instr.row .jal, Instr.row .cmd7, Instr.row .cmd8] ++
  [Instr.row .cmd9, Instr.row .cmd10, Instr.row .cmd11, Instr.row .cmd12, Instr.row .cmd13, Instr.row .brk,
   Instr.row .halt, Instr.row (.movalu 0), Instr.row (.mov 0 0)]

end Sys2Proof
end

