-- ==== Sys2Proof/Config.lean ====
section
/-! DEFINITION. The construction parameters of 00_scope.md R6 that stay fixed for the life of one instance: `REG_MAP`,
`WRITE_GUARD`, `JAL_LINK_MODE`. They are plain data and stand in the state of each instance, so that every statement ranges
over all of their values. The two images of R6 are not here: they are the arguments of `Machine.State.construct`. -/

namespace Sys2Proof

/-- The 16 roles of a register slot, under the names of R7. The order is R7's and is not the index order (90_conflicts.md C2). -/
inductive Role where
  | imm | ctl | mlo | mhi | alua | alub | aluop | alur | ad0 | ad1 | ad2 | ad3 | gp0 | gp1 | gp2 | gp3
deriving DecidableEq, Repr

/-- Every role once. -/
def Role.all : List Role :=
  [.imm, .ctl, .mlo, .mhi, .alua, .alub, .aluop, .alur, .ad0, .ad1, .ad2, .ad3, .gp0, .gp1, .gp2, .gp3]

/-- `REG_MAP` (R6, 92_eei_decisions.md D1): the indices of the 14 roles whose index the spec leaves `OPEN`. The two it fixes,
`IMM` = 5 and `ALUR` = 15, are no fields: `RegMap.index` gives them. -/
structure RegMap where
  ctl : Nib
  mlo : Nib
  mhi : Nib
  alua : Nib
  alub : Nib
  aluop : Nib
  ad0 : Nib
  ad1 : Nib
  ad2 : Nib
  ad3 : Nib
  gp0 : Nib
  gp1 : Nib
  gp2 : Nib
  gp3 : Nib
deriving DecidableEq, Repr

/-- `REG_MAP(role)`: the slot a role is bound to (R6, R7). -/
def RegMap.index (m : RegMap) : Role → Nib
  | .imm => 5
  | .alur => 15
  | .ctl => m.ctl
  | .mlo => m.mlo
  | .mhi => m.mhi
  | .alua => m.alua
  | .alub => m.alub
  | .aluop => m.aluop
  | .ad0 => m.ad0
  | .ad1 => m.ad1
  | .ad2 => m.ad2
  | .ad3 => m.ad3
  | .gp0 => m.gp0
  | .gp1 => m.gp1
  | .gp2 => m.gp2
  | .gp3 => m.gp3

/-- The constraint of R6 on `REG_MAP`: it is a bijection from the roles onto the 16 indices. As there are 16 of each, that is:
no two roles have one index. -/
def RegMap.admissible (m : RegMap) : Bool := decide (Role.all.map m.index).Nodup

/-- `JAL_LINK_MODE` (R6, R142). -/
inductive JalLinkMode where
  /-- JAL leaves the return address in the address register; the default of R6. -/
  | linkToAddress
  /-- JAL is a plain jump. -/
  | discard
deriving DecidableEq, Repr

/-- The parameters of one instance (R6). `WRITE_GUARD`, a function from a 16-bit address to a Boolean, is held as the list of
the addresses it is false on, strictly rising: each such function has exactly one such list. The empty list is the design's
own guard, "always true" (R48). -/
structure Config where
  regMap : RegMap
  guardRefuses : List Addr
  jalLinkMode : JalLinkMode
deriving DecidableEq, Repr

/-- The list is strictly rising, so that equal guards are equal data. -/
def strictlyRising : List Addr → Bool
  | [] => true
  | [_] => true
  | a :: b :: rest => decide (a.toNat < b.toNat) && strictlyRising (b :: rest)

/-- The parameters are ones R6 admits. -/
def Config.wf (c : Config) : Bool := c.regMap.admissible && strictlyRising c.guardRefuses

end Sys2Proof
end

