-- ==== Sys2Proof/Machine/Memory.lean ====
section
/-! DEFINITION. A byte array as plain data: main memory (65536 bytes, 10_state.md R32) and the ALU ROM (4096 bytes, R34) are
both held so. It is a list of (index, byte) pairs in one canonical form: indices strictly rising and below the array's size,
and no entry equal to what an unlisted index reads as. Equal arrays are therefore equal data. -/

namespace Sys2Proof.Machine

/-- A sparse byte array. -/
abbrev Memory := List Host.Cell

/-- What an index that no entry names reads as: 0x00, the value R32, R33 and R34 give a byte that no image supplies. -/
def Memory.unlisted : Byte := 0x00

/-- The number of bytes of main memory (R5, R32). -/
def memSize : Nat := 65536

/-- The number of bytes of the ALU ROM (R5, R34). -/
def romSize : Nat := 4096

/-- The byte at an index. -/
def Memory.read : Memory → Nat → Byte
  | [], _ => Memory.unlisted
  | (k, b) :: m, a => if k = a then b else Memory.read m a

/-- Store a byte at an index, keeping the canonical form: storing what an unlisted index reads as removes the entry. -/
def Memory.write : Memory → Nat → Byte → Memory
  | [], a, v => if v = Memory.unlisted then [] else [(a, v)]
  | (k, b) :: m, a, v =>
    if k < a then (k, b) :: Memory.write m a v
    else if k = a then (if v = Memory.unlisted then m else (a, v) :: m)
    else if v = Memory.unlisted then (k, b) :: m
    else (a, v) :: (k, b) :: m

/-- The canonical form, for the entries from index `lo` on, of an array of `size` bytes. -/
def Memory.wfFrom (size : Nat) : Nat → Memory → Bool
  | _, [] => true
  | lo, (k, b) :: m =>
    decide (lo ≤ k) && decide (k < size) && decide (b ≠ Memory.unlisted) && Memory.wfFrom size (k + 1) m

/-- The canonical form of an array of `size` bytes. -/
def Memory.wf (size : Nat) (m : Memory) : Bool := Memory.wfFrom size 0 m

/-- The array that holds the given bytes from index `lo` on. -/
def Memory.ofBytesFrom : Nat → List Byte → Memory
  | _, [] => []
  | lo, b :: bs =>
    if b = Memory.unlisted then Memory.ofBytesFrom (lo + 1) bs else (lo, b) :: Memory.ofBytesFrom (lo + 1) bs

/-- Image normalisation (R33): a supplied byte string is cut to the array's size, a short one is padded with 0x00 at the top,
an absent one is all 0x00. -/
def Memory.ofImage (size : Nat) (img : Option (List Byte)) : Memory :=
  Memory.ofBytesFrom 0 ((img.getD []).take size)

/-- All bytes of an array in index order. -/
def Memory.bytes (size : Nat) (m : Memory) : List Byte := (List.range size).map m.read

end Sys2Proof.Machine
end

