-- ==== Sys2Proof/Machine/Construction.lean ====
section
/-! DEFINITION. The construction arguments that `State.reset` is built with (00_scope.md R6, 70_reset_and_hazards.md R200).
`State.construct` takes any others, and the statements range over all of them. -/

namespace Sys2Proof.Machine

/-- The register map of `State.reset`: `SAMPLE_MAP` of 92_eei_decisions.md D2.
DESIGN CHOICE (log entry 1): R6 leaves 14 indices `OPEN`; unsafe for a claim that rests on this map, so none does. -/
def sampleMap : RegMap where
  ctl := 0
  mlo := 1
  mhi := 2
  gp0 := 3
  gp1 := 4
  gp2 := 6
  gp3 := 7
  ad0 := 8
  ad1 := 9
  ad2 := 10
  ad3 := 11
  alua := 12
  alub := 13
  aluop := 14

/-- The parameters of `State.reset`: the map above, and R6's own defaults for the guard ("always true") and the link mode. -/
def resetConfig : Config where
  regMap := sampleMap
  guardRefuses := []
  jalLinkMode := .linkToAddress

/-- The program image of `State.reset`: none is supplied (log entry 2). -/
def resetMemImage : Option (List Byte) := none

/-- The ALU image of `State.reset`: none is supplied, so the ROM is all zeros (R34, R95; DESIGN CHOICE, log entry 3). -/
def resetAluImage : Option (List Byte) := none

end Sys2Proof.Machine
end

