-- ==== Sys2Proof/Machine/Slots.lean ====
section
/-! DEFINITION. Sixteen like things indexed by a nibble: the slots of the register file (10_state.md R20) and the bytes of a
register dump (R36). Plain named fields, so that two files are compared and written out by evaluation. -/

namespace Sys2Proof.Machine

/-- One value for each of the indices 0..15. -/
structure Slots (α : Type) where
  x0 : α
  x1 : α
  x2 : α
  x3 : α
  x4 : α
  x5 : α
  x6 : α
  x7 : α
  x8 : α
  x9 : α
  x10 : α
  x11 : α
  x12 : α
  x13 : α
  x14 : α
  x15 : α
deriving DecidableEq, Repr

/-- The value at an index. -/
def Slots.get {α : Type} (r : Slots α) (i : Nib) : α :=
  match i.toNat with
  | 0 => r.x0
  | 1 => r.x1
  | 2 => r.x2
  | 3 => r.x3
  | 4 => r.x4
  | 5 => r.x5
  | 6 => r.x6
  | 7 => r.x7
  | 8 => r.x8
  | 9 => r.x9
  | 10 => r.x10
  | 11 => r.x11
  | 12 => r.x12
  | 13 => r.x13
  | 14 => r.x14
  | _ => r.x15

/-- The same values but for one index. -/
def Slots.set {α : Type} (r : Slots α) (i : Nib) (v : α) : Slots α :=
  match i.toNat with
  | 0 => { r with x0 := v }
  | 1 => { r with x1 := v }
  | 2 => { r with x2 := v }
  | 3 => { r with x3 := v }
  | 4 => { r with x4 := v }
  | 5 => { r with x5 := v }
  | 6 => { r with x6 := v }
  | 7 => { r with x7 := v }
  | 8 => { r with x8 := v }
  | 9 => { r with x9 := v }
  | 10 => { r with x10 := v }
  | 11 => { r with x11 := v }
  | 12 => { r with x12 := v }
  | 13 => { r with x13 := v }
  | 14 => { r with x14 := v }
  | _ => { r with x15 := v }

/-- A function applied to every value. -/
def Slots.map {α β : Type} (f : α → β) (r : Slots α) : Slots β :=
  ⟨f r.x0, f r.x1, f r.x2, f r.x3, f r.x4, f r.x5, f r.x6, f r.x7,
   f r.x8, f r.x9, f r.x10, f r.x11, f r.x12, f r.x13, f r.x14, f r.x15⟩

/-- One value at every index. -/
def Slots.replicate {α : Type} (v : α) : Slots α := ⟨v, v, v, v, v, v, v, v, v, v, v, v, v, v, v, v⟩

/-- The values in index order. -/
def Slots.toList {α : Type} (r : Slots α) : List α :=
  [r.x0, r.x1, r.x2, r.x3, r.x4, r.x5, r.x6, r.x7] ++
  [r.x8, r.x9, r.x10, r.x11, r.x12, r.x13, r.x14, r.x15]

end Sys2Proof.Machine
end

