-- ==== Sys2Proof/Machine/State.lean ====
section
/-! DEFINITION. The state of one CORE instance (10_state.md), the events it hands to its host, how a run can stop, and
construction, which is its reset (70_reset_and_hazards.md R200, R201). -/

namespace Sys2Proof.Machine

/-- The register dump of BRK and HALT: `regs[i] = zext_8(x[i])`, in index order (R36). -/
abbrev RegDump := Slots Byte

/-- An output event (R36). The 65536 memory bytes of a Halt event are held in the canonical form of `Memory`, which lists
the bytes that are not 0x00; `Event.memBytes` gives them as the spec lists them (log entry 5). -/
inductive Event where
  /-- `Break(pc, regs)` (R161). -/
  | brk (pc : Addr) (regs : RegDump)
  /-- `Halt(pc, regs, mem)` (R162). -/
  | halt (pc : Addr) (regs : RegDump) (mem : Memory)
deriving DecidableEq, Repr

/-- The event is a Halt. -/
def Event.isHalt : Event → Bool
  | .brk _ _ => false
  | .halt _ _ _ => true

/-- The register dump an event carries. -/
def Event.regs : Event → RegDump
  | .brk _ r => r
  | .halt _ r _ => r

/-- The memory bytes an event carries, in ascending address order: none for a Break, 65536 for a Halt (R36). -/
def Event.memBytes : Event → List Byte
  | .brk _ _ => []
  | .halt _ _ m => m.bytes memSize

/-- The state of one instance. The address register has no storage of its own (R27): it is gathered from four slots. -/
structure State where
  /-- The register file `x[0]`..`x[15]` (R20). -/
  regs : Slots Nib
  /-- The program counter (R30). -/
  pc : Addr
  /-- The halted flag (R31). -/
  halted : Bool
  /-- Main memory `M` (R32). -/
  mem : Memory
  /-- The ALU ROM (R34). -/
  aluRom : Memory
  /-- The construction parameters of this instance (R6); no step changes them. -/
  config : Config
  /-- The events handed to the host since construction, oldest first (R36). The field is the model's own: the spec's step
  relation gives them as an output (log entry 4). -/
  events : List Event
deriving DecidableEq, Repr

/-- Why a step gives no next state. No instruction raises one (R180). -/
inductive Fault where
  /-- Raised by `step` alone, on a state with `halted = 1`: such a state is final and has no step (R31, R36). Safe: the spec's
  step relation gives `none` there. -/
  | alreadyHalted
deriving DecidableEq, Repr

/-- Why an instruction has no meaning in this model. -/
inductive Refusal where
  /-- Raised by an arm of `exec` whose instruction has no meaning yet; no arm of this model does. Safe. -/
  | notModelled (mnemonic : String)
deriving DecidableEq, Repr

/-- Construction (R201) from the inputs of R36: every slot 0, `pc` 0, not halted, memory and ALU ROM from the normalised
images, no event emitted yet. -/
def State.construct (c : Config) (memImage aluImage : Option (List Byte)) : State where
  regs := Slots.replicate 0
  pc := 0
  halted := false
  mem := Memory.ofImage memSize memImage
  aluRom := Memory.ofImage romSize aluImage
  config := c
  events := []

/-- The machine right after reset, which is construction (R200), with no image supplied. -/
def State.reset : State := State.construct resetConfig resetMemImage resetAluImage

end Sys2Proof.Machine
end

