-- ==== Sys2Proof/Machine/Ops.lean ====
section
/-! DEFINITION. The primitives of 00_scope.md R9: reading and writing a slot, `pc`, memory and the ALU ROM, emitting an event,
stopping. Every instruction is written over these. There is no operation for taking an exception or returning from one: the
CORE has no trap entry and no trap return (60_exceptions.md R180, R183, R184). -/

namespace Sys2Proof.Machine

/-- `x[i]` (R9). -/
def State.readSlot (s : State) (i : Nib) : Nib := s.regs.get i

/-- `x[i] <- v` (R9). -/
def State.writeSlot (s : State) (i v : Nib) : State := { s with regs := s.regs.set i v }

/-- The slot `REG_MAP` binds a role to (R7). -/
def State.slotOf (s : State) (r : Role) : Nib := s.config.regMap.index r

/-- `x[ROLE]`: a role name stands for its index (R7). -/
def State.readRole (s : State) (r : Role) : Nib := s.readSlot (s.slotOf r)

/-- `x[ROLE] <- v`. -/
def State.writeRole (s : State) (r : Role) (v : Nib) : State := s.writeSlot (s.slotOf r) v

/-- `pc <- target` (R9). -/
def State.setPc (s : State) (a : Addr) : State := { s with pc := a }

/-- `MemRead(addr, 1)` (R9): every address has a byte (R41). -/
def State.memByte (s : State) (a : Addr) : Byte := s.mem.read a.toNat

/-- `MemWrite(addr, 1, v)` (R9). -/
def State.storeByte (s : State) (a : Addr) (v : Byte) : State := { s with mem := s.mem.write a.toNat v }

/-- `AluRom(key)` (R9). -/
def State.romByte (s : State) (k : RomKey) : Byte := s.aluRom.read k.toNat

/-- `WRITE_GUARD(addr)` (R6, R48): a function of the address alone. -/
def State.writeGuard (s : State) (a : Addr) : Bool := !s.config.guardRefuses.contains a

/-- `emit E` (R9). -/
def State.emit (s : State) (e : Event) : State := { s with events := s.events ++ [e] }

/-- `halted <- 1` (R9, R31). -/
def State.setHalted (s : State) : State := { s with halted := true }

/-- `[zext_8(x[0]), …, zext_8(x[15])]`, the dump of BRK and HALT (R36): slot 15 as its stored value. -/
def State.dumpRegs (s : State) : RegDump := s.regs.map fun v => v.setWidth 8

/-- The byte fetch reads: `M[pc]` (R61). -/
def State.fetchByte (s : State) : Byte := s.memByte s.pc

/-- The increment of `pc` that fetch does before execute (R61). -/
def State.advancePc (s : State) : State := s.setPc (s.pc + 1)

end Sys2Proof.Machine
end

