-- ==== Sys2Proof/Machine/Flags.lean ====
section
/-! DEFINITION. The CORE has no flags, no condition codes and no carry (10_state.md R35). The one condition any instruction
tests is that the control register is zero (R24, R141). -/

namespace Sys2Proof.Machine

/-- `x[CTL] == 0`, the condition of JZ (R141). -/
def State.ctlIsZero (s : State) : Bool := s.readRole .ctl == 0

end Sys2Proof.Machine
end

