-- ==== Sys2Proof/Machine/Operands.lean ====
section
/-! DEFINITION. The operands that are made of several slots: the address register (10_state.md R27, R28), the data byte of
`MLO` and `MHI` (R25), and the ALU value that index 15 gives as a source (40_alu_rom.md R81, R94). -/

namespace Sys2Proof.Machine

/-- The address register `AR`, gathered from four slots (R27). -/
def State.ar (s : State) : Addr :=
  (s.readRole .ad0).setWidth 16 ||| (s.readRole .ad1).setWidth 16 <<< 4 ||| (s.readRole .ad2).setWidth 16 <<< 8 |||
    (s.readRole .ad3).setWidth 16 <<< 12

/-- `AR <- v` (R28): the four nibbles of `v`, low to high, into the four slots. -/
def State.setAr (s : State) (v : Addr) : State :=
  (((s.writeRole .ad0 (v.extractLsb' 0 4)).writeRole .ad1 (v.extractLsb' 4 4)).writeRole .ad2
    (v.extractLsb' 8 4)).writeRole .ad3 (v.extractLsb' 12 4)

/-- The data byte that MEMWR stores: `MLO` is bits 3:0, `MHI` bits 7:4 (R44, R122). -/
def State.dataByte (s : State) : Byte := (s.readRole .mlo).setWidth 8 ||| (s.readRole .mhi).setWidth 8 <<< 4

/-- Split a byte into `MLO` and `MHI`, as MEMRD does (R121). -/
def State.setDataByte (s : State) (b : Byte) : State :=
  (s.writeRole .mlo (b.extractLsb' 0 4)).writeRole .mhi (b.extractLsb' 4 4)

/-- The ALU ROM key (R81). -/
def State.aluKey (s : State) : RomKey :=
  (s.readRole .alua).setWidth 12 ||| (s.readRole .alub).setWidth 12 <<< 4 ||| (s.readRole .aluop).setWidth 12 <<< 8

/-- The ALU value: the low nibble of the ROM byte at the key (R94). -/
def State.aluValue (s : State) : Nib := (s.romByte s.aluKey).extractLsb' 0 4

end Sys2Proof.Machine
end

