-- ==== Sys2Proof/Machine/ControlCommands.lean ====
section
/-! DEFINITION. The control-transfer commands (43_control_commands.md). Every target is `AR` (R143). -/

namespace Sys2Proof.Machine

/-- JMP (R140): `pc <- AR`. -/
def execJmp (s : State) : Host.Outcome State Fault Refusal := .next (s.setPc s.ar)

/-- JZ (R141): `if x[CTL] == 0 then pc <- AR`. -/
def execJz (s : State) : Host.Outcome State Fault Refusal := .next (if s.ctlIsZero then s.setPc s.ar else s)

/-- JAL (R142): jump to `AR`; in mode `LinkToAddress` the old `pc`, which is the JAL's address + 1, goes into `AR`. -/
def execJal (s : State) : Host.Outcome State Fault Refusal :=
  match s.config.jalLinkMode with
  | .linkToAddress => .next ((s.setPc s.ar).setAr s.pc)
  | .discard => .next (s.setPc s.ar)

end Sys2Proof.Machine
end

