-- ==== Sys2Proof/Machine/MemoryCommands.lean ====
section
/-! DEFINITION. The memory and address commands (42_memory_commands.md). -/

namespace Sys2Proof.Machine

/-- MEMRD (R121): the byte at `AR` into `MLO` and `MHI`. -/
def execMemrd (s : State) : Host.Outcome State Fault Refusal := .next (s.setDataByte (s.memByte s.ar))

/-- MEMWR (R122): store `MHI:MLO` at `AR` if the guard permits it; else nothing changes. -/
def execMemwr (s : State) : Host.Outcome State Fault Refusal :=
  .next (if s.writeGuard s.ar then s.storeByte s.ar s.dataByte else s)

/-- INCA (R123): `AR <- (AR + 1) mod 65536`. -/
def execInca (s : State) : Host.Outcome State Fault Refusal := .next (s.setAr (s.ar + 1))

/-- DECA (R124): `AR <- (AR + 65535) mod 65536`. -/
def execDeca (s : State) : Host.Outcome State Fault Refusal := .next (s.setAr (s.ar + 65535))

end Sys2Proof.Machine
end

