-- ==== Sys2Proof/Machine/Moves.lean ====
section
/-! DEFINITION. The move family (41_moves.md). In every meaning `s.pc` is already the fetch address + 1 (30_encoding.md R61). -/

namespace Sys2Proof.Machine

/-- LDI (R100): `x[IMM] <- n`. -/
def execLdi (n : Nib) (s : State) : Host.Outcome State Fault Refusal := .next (s.writeRole .imm n)

/-- MOV (R101): `v <- x[s]; x[d] <- v`. -/
def execMov (d src : Nib) (s : State) : Host.Outcome State Fault Refusal := .next (s.writeSlot d (s.readSlot src))

/-- MOVALU (R102): the ALU value, read before the write, into `x[d]`. -/
def execMovalu (d : Nib) (s : State) : Host.Outcome State Fault Refusal := .next (s.writeSlot d s.aluValue)

end Sys2Proof.Machine
end

