-- ==== Sys2Proof/Machine/SystemCommands.lean ====
section
/-! DEFINITION. The reserved, break and halt commands (44_system_commands.md). -/

namespace Sys2Proof.Machine

/-- What a reserved command does: nothing beyond the fetch increment that has already happened (R160). -/
def reservedCommand (s : State) : Host.Outcome State Fault Refusal := .next s

/-- CMD7 (R160). -/
def execCmd7 (s : State) : Host.Outcome State Fault Refusal := reservedCommand s

/-- CMD8 (R160). -/
def execCmd8 (s : State) : Host.Outcome State Fault Refusal := reservedCommand s

/-- CMD9 (R160). -/
def execCmd9 (s : State) : Host.Outcome State Fault Refusal := reservedCommand s

/-- CMD10 (R160). -/
def execCmd10 (s : State) : Host.Outcome State Fault Refusal := reservedCommand s

/-- CMD11 (R160). -/
def execCmd11 (s : State) : Host.Outcome State Fault Refusal := reservedCommand s

/-- CMD12 (R160). -/
def execCmd12 (s : State) : Host.Outcome State Fault Refusal := reservedCommand s

/-- CMD13 (R160). -/
def execCmd13 (s : State) : Host.Outcome State Fault Refusal := reservedCommand s

/-- BRK (R161): emit `Break(pc, regs)`; no state of the CORE changes. -/
def execBrk (s : State) : Host.Outcome State Fault Refusal := .next (s.emit (.brk s.pc s.dumpRegs))

/-- HALT (R162): emit `Halt(pc, regs, mem)`, then `halted <- 1`. -/
def execHalt (s : State) : Host.Outcome State Fault Refusal := .next (s.emit (.halt s.pc s.dumpRegs s.mem)).setHalted

end Sys2Proof.Machine
end

