-- ==== Sys2Proof/Machine/Dispatch.lean ====
section
/-! DEFINITION. One meaning per instruction: the execute phase of 30_encoding.md R60. -/

namespace Sys2Proof.Machine

def exec (i : Instr) (s : State) : Host.Outcome State Fault Refusal :=
  match i with
  | .ldi n => Sys2Proof.Machine.execLdi n s
  | .memrd => Sys2Proof.Machine.execMemrd s
  | .memwr => Sys2Proof.Machine.execMemwr s
  | .inca => Sys2Proof.Machine.execInca s
  | .deca => Sys2Proof.Machine.execDeca s
  | .jmp => Sys2Proof.Machine.execJmp s
  | .jz => Sys2Proof.Machine.execJz s
  | .jal => Sys2Proof.Machine.execJal s
  | .cmd7 => Sys2Proof.Machine.execCmd7 s
  | .cmd8 => Sys2Proof.Machine.execCmd8 s
  | .cmd9 => Sys2Proof.Machine.execCmd9 s
  | .cmd10 => Sys2Proof.Machine.execCmd10 s
  | .cmd11 => Sys2Proof.Machine.execCmd11 s
  | .cmd12 => Sys2Proof.Machine.execCmd12 s
  | .cmd13 => Sys2Proof.Machine.execCmd13 s
  | .brk => Sys2Proof.Machine.execBrk s
  | .halt => Sys2Proof.Machine.execHalt s
  | .movalu d => Sys2Proof.Machine.execMovalu d s
  | .mov d src => Sys2Proof.Machine.execMov d src s

end Sys2Proof.Machine
end

