-- ==== Sys2Proof/Machine/Step.lean ====
section
/-! DEFINITION. One step of the machine: fetch, decode, execute (30_encoding.md R60). -/

namespace Sys2Proof.Machine

/-- One step (R60): read the byte at `pc`, increment `pc`, decode, execute. A halted machine has no step (R31). -/
def step (s : State) : Host.Outcome State Fault Refusal :=
  if s.halted then .fault .alreadyHalted else exec (decodeByte s.fetchByte) s.advancePc

/-- The step relation of R36: `none` exactly when the machine has no step, else the next state and the events this step
emitted, which are those it added to the log. -/
def stepRelation (s : State) : Option (State × List Event) :=
  match step s with
  | .next t => some (t, t.events.drop s.events.length)
  | .fault _ => none
  | .refused _ => none

/-- Place the one-byte instruction `w` where the next step fetches, and leave the halted state so that there is a next step. -/
def State.withFetchWord (s : State) (nbits w : Nat) : State :=
  { s with mem := s.mem.write s.pc.toNat (BitVec.ofNat 8 (w % 2 ^ nbits)), halted := false }

end Sys2Proof.Machine
end

