-- ==== Sys2Proof/Machine/Alu.lean ====
section
/-! DEFINITION. The standard ALU table (40_alu_rom.md R80 to R93): the operations of the ALU-ROM Builder and the ROM image it
produces. The CORE itself only looks bytes up (`Operands.lean`); it computes none of these. -/

namespace Sys2Proof.Machine

/-- The unary operations that op 15 selects (R91, R92, R93). -/
def unop (sel a : Nib) : Nib :=
  match sel.toNat with
  | 0 => if a = 0 then 1 else 0
  | 1 => BitVec.ofNat 4 (15 - a.toNat)
  | _ => 0

/-- The binary operations (R82 to R90): exact on naturals, then cut to 4 bits. -/
def binop (op a b : Nib) : Nib :=
  match op.toNat with
  | 0 => BitVec.ofNat 4 (a.toNat + b.toNat)
  | 1 => BitVec.ofNat 4 ((a.toNat + b.toNat) / 16)
  | 2 => BitVec.ofNat 4 (a.toNat * b.toNat)
  | 3 => BitVec.ofNat 4 (a.toNat * b.toNat / 16)
  | 4 => a &&& b
  | 5 => a ||| b
  | 6 => a ^^^ b
  | 15 => unop b a
  | _ => 0

/-- The byte of the standard table at a key `A | B<<4 | op<<8` (R80). -/
def stdAluByte (key : Nat) : Byte :=
  (binop (BitVec.ofNat 4 (key / 256)) (BitVec.ofNat 4 key) (BitVec.ofNat 4 (key / 16))).setWidth 8

/-- `STD_ALU_ROM` as a byte string of 4096 bytes, in key order (R80). -/
def stdAluImage : List Byte := (List.range romSize).map stdAluByte

/-- The ALU ROM of an instance built with `STD_ALU_ROM` as its image. -/
def stdAluRom : Memory := Memory.ofImage romSize (some stdAluImage)

end Sys2Proof.Machine
end

