-- ==== Sys2Proof/Safety.lean ====
section
/-! DEFINITION. The terms the statements use: a safe state, the invariant of a run, and the register access table of
10_state.md R21. -/

namespace Sys2Proof.Machine

/-- The state has a step: it neither faults nor refuses. -/
def State.Safe (s : State) : Prop := ∃ t, step s = .next t

/-- An event has the form R36 gives it: the dump of slot 15 is 0 (R23), every dump byte holds a nibble, and a Halt's memory
is in canonical form. -/
def Event.wf (e : Event) : Bool :=
  decide (e.regs.get 15 = 0) && e.regs.toList.all (fun b => decide (b.toNat < 16)) &&
    match e with
    | .brk _ _ => true
    | .halt _ _ m => m.wf memSize

/-- The invariant of a run. -/
structure State.Inv (s : State) : Prop where
  /-- The construction parameters are ones R6 admits. -/
  configWf : s.config.wf = true
  /-- Main memory is in canonical form. -/
  memWf : s.mem.wf memSize = true
  /-- The ALU ROM is in canonical form. -/
  romWf : s.aluRom.wf romSize = true
  /-- Slot 15 holds its reset value 0 (R23). -/
  slotFifteen : s.readSlot 15 = 0
  /-- Every event handed over has the form of R36. -/
  eventsWf : s.events.all Event.wf = true
  /-- A Halt event has been handed over exactly if the machine is halted, and then one has (R162, R163). -/
  haltEvents : s.events.countP Event.isHalt = if s.halted then 1 else 0

/-- A move whose dst nibble is `d` (R21). -/
def MovesInto (i : Instr) (d : Nib) : Prop := i = .movalu d ∨ ∃ src, i = .mov d src

/-- A MOV whose src nibble is `src` (R21). -/
def MovesFrom (i : Instr) (src : Nib) : Prop := ∃ d, i = .mov d src

/-- The instructions that hand over a register dump (R21). -/
def Dumps (i : Instr) : Prop := i = .brk ∨ i = .halt

/-- The "written by" column of R21, for an instance with parameters `c`. -/
def WrittenBy (c : Config) (i : Instr) (r : Role) : Prop :=
  match r with
  | .imm => ∃ n, i = .ldi n
  | .alur => False
  | .ctl | .alua | .alub | .aluop | .gp0 | .gp1 | .gp2 | .gp3 => MovesInto i (c.regMap.index r)
  | .mlo | .mhi => MovesInto i (c.regMap.index r) ∨ i = .memrd
  | .ad0 | .ad1 | .ad2 | .ad3 =>
    MovesInto i (c.regMap.index r) ∨ i = .inca ∨ i = .deca ∨ (i = .jal ∧ c.jalLinkMode = .linkToAddress)

/-- The "read by" column of R21, for an instance with parameters `c`. -/
def ReadBy (c : Config) (i : Instr) (r : Role) : Prop :=
  match r with
  | .imm | .gp0 | .gp1 | .gp2 | .gp3 => MovesFrom i (c.regMap.index r) ∨ Dumps i
  | .alur => Dumps i
  | .ctl => MovesFrom i (c.regMap.index r) ∨ i = .jz ∨ Dumps i
  | .mlo | .mhi => MovesFrom i (c.regMap.index r) ∨ i = .memwr ∨ Dumps i
  | .alua | .alub | .aluop => MovesFrom i (c.regMap.index r) ∨ (∃ d, i = .movalu d) ∨ Dumps i
  | .ad0 | .ad1 | .ad2 | .ad3 =>
    MovesFrom i (c.regMap.index r) ∨ i ∈ [Instr.memrd, .memwr, .inca, .deca, .jmp, .jz, .jal] ∨ Dumps i

/-- The registers are unchanged but for the listed slots. -/
def RegsSameBut (slots : List Nib) (s t : State) : Prop := ∀ j, j ∉ slots → t.readSlot j = s.readSlot j

/-- Every byte of main memory reads as before. -/
def MemorySame (s t : State) : Prop := ∀ a, t.memByte a = s.memByte a

/-- Every state that is neither a register, nor `pc`, nor main memory is unchanged: the ALU ROM, the halted flag, the events
handed over and the parameters. -/
def RestSame (s t : State) : Prop :=
  (∀ k, t.romByte k = s.romByte k) ∧ t.halted = s.halted ∧ t.events = s.events ∧ t.config = s.config

/-- The slots of the four address nibbles. -/
def State.addressSlots (s : State) : List Nib := [s.slotOf .ad0, s.slotOf .ad1, s.slotOf .ad2, s.slotOf .ad3]

/-- Two instances whose register maps may differ hold the same values role by role, and agree in everything else that an
instruction can act on (00_scope.md R6, 30_encoding.md R70). Their dumps list the slots in different orders, so of the events
only the number is compared. -/
structure RoleEquivalent (s t : State) : Prop where
  leftConfig : s.config.wf = true
  rightConfig : t.config.wf = true
  roles : ∀ r, t.readRole r = s.readRole r
  guard : t.config.guardRefuses = s.config.guardRefuses
  linkMode : t.config.jalLinkMode = s.config.jalLinkMode
  pc : t.pc = s.pc
  halted : t.halted = s.halted
  mem : t.mem = s.mem
  aluRom : t.aluRom = s.aluRom
  events : t.events.length = s.events.length

end Sys2Proof.Machine
end

