-- ==== Sys2Proof/Certificates/Slice0/Obligations.lean ====
section
/-! DEFINITION. The statements for the provers. In a statement about `exec`, `s.pc` is the fetch address + 1, as in the execute
phase of 30_encoding.md R60. -/

open Sys2Proof Sys2Proof.Machine

/-! ### Encoding and the instruction cycle -/

/-- Decoding and encoding are inverse to each other: every well-formed instruction's byte decodes to it, and every one of the
256 bytes is the byte of the well-formed instruction it decodes to (30_encoding.md, sections 1, 2 and 4). -/
def Obligations.DecodeEncodeAgree : Prop :=
  (∀ i : Instr, i.wellFormed = true → decodeByte (encode i) = i) ∧
  (∀ b : Byte, (decodeByte b).wellFormed = true ∧ encode (decodeByte b) = b) ∧
  (∀ (b : Byte) (rest : List Byte), decode (b :: rest) = .ok (decodeByte b, rest)) ∧
  decode [] = .error .noBytes

/-- A few bytes of 95_test_vectors.md section 2.1, one or more per family, written out. -/
def Obligations.SpecWordsDecode : Prop :=
  decodeByte 0b00000000 = .mov 0 0 ∧ decodeByte 0b01011010 = .mov 10 5 ∧ decodeByte 0b00000101 = .ldi 0 ∧
  decodeByte 0b01010101 = .ldi 5 ∧ decodeByte 0b11110101 = .ldi 15 ∧ decodeByte 0b11110000 = .movalu 0 ∧
  decodeByte 0b11111110 = .movalu 14 ∧ decodeByte 0b00001111 = .memrd ∧ decodeByte 0b01011111 = .jz ∧
  decodeByte 0b11111111 = .halt

/-- R60 and R63: a step of a machine that is not halted reads the byte at `pc`, increments `pc`, and executes the instruction
the byte decodes to, by the case order of R63; a halted machine has no step. -/
def Obligations.StepIsFetchDecodeExecute : Prop :=
  ∀ s : State,
    (s.halted = false →
      (∀ i, decodeByte (s.memByte s.pc) = i → i.wellFormed = true ∧ step s = exec i { s with pc := s.pc + 1 }) ∧
      ∀ src dst : Nib, (s.memByte s.pc).toNat = 16 * src.toNat + dst.toNat →
        (dst = 5 → step s = exec (.ldi src) { s with pc := s.pc + 1 }) ∧
        (dst = 15 → step s = exec (commandInstr src) { s with pc := s.pc + 1 }) ∧
        (dst ≠ 5 → dst ≠ 15 → src = 15 → step s = exec (.movalu dst) { s with pc := s.pc + 1 }) ∧
        (dst ≠ 5 → dst ≠ 15 → src ≠ 15 → step s = exec (.mov dst src) { s with pc := s.pc + 1 })) ∧
    (s.halted = true → step s = .fault .alreadyHalted)

/-- R64: the byte with dst 15 runs the command its src nibble indexes in the table. -/
def Obligations.CommandTable : Prop :=
  ∀ (s : State) (k : Nib), s.halted = false → (s.memByte s.pc).toNat = 16 * k.toNat + 15 →
    step s = exec
      (match k.toNat with
        | 0 => .memrd | 1 => .memwr | 2 => .inca | 3 => .deca | 4 => .jmp | 5 => .jz | 6 => .jal
        | 7 => .cmd7 | 8 => .cmd8 | 9 => .cmd9 | 10 => .cmd10 | 11 => .cmd11 | 12 => .cmd12 | 13 => .cmd13
        | 14 => .brk | _ => .halt)
      { s with pc := s.pc + 1 }

/-- R61: fetch reads the byte at `pc` whatever the write guard, never faults, and the increment, modulo 65536, comes before
execute. -/
def Obligations.FetchIncrementsBeforeExecute : Prop :=
  ∀ (s : State) (l : List Addr), s.halted = false →
    ∃ (i : Instr) (p : Addr) (t : State),
      encode i = s.memByte s.pc ∧ p.toNat = (s.pc.toNat + 1) % 65536 ∧
      step s = exec i { s with pc := p } ∧ step s = .next t ∧
      step { s with config := { s.config with guardRefuses := l } } =
        exec i { s with config := { s.config with guardRefuses := l }, pc := p }

/-- R42 and R45: no access has an address it can fault on, odd or even; so every instruction completes in every state, and
every machine that is not halted has a step. -/
def Obligations.EveryInstructionCompletes : Prop :=
  (∀ (i : Instr) (s : State), ∃ t, exec i s = .next t) ∧ (∀ s : State, s.halted = false → s.Safe)

/-- R182 (with the form of the events, R36): a step emits at most one event, and it is the Break of a BRK or the Halt of a
HALT; the step relation is undefined exactly on a halted machine. -/
def Obligations.StepEmitsAtMostOneEvent : Prop :=
  ∀ s : State, (stepRelation s = none ↔ s.halted = true) ∧
    ∀ t es, stepRelation s = some (t, es) → step s = .next t ∧ t.events = s.events ++ es ∧
      ((es = [] ∧ decodeByte (s.memByte s.pc) ≠ .brk ∧ decodeByte (s.memByte s.pc) ≠ .halt) ∨
       (es = [.brk (s.pc + 1) s.dumpRegs] ∧ decodeByte (s.memByte s.pc) = .brk) ∨
       (es = [.halt (s.pc + 1) s.dumpRegs s.mem] ∧ decodeByte (s.memByte s.pc) = .halt))

/-! ### Construction, the invariant -/

/-- R201 with R33: construction from the two optional images, each cut or padded with zeros to the array's size. -/
def Obligations.ConstructionSetsEveryElement : Prop :=
  ∀ (c : Config) (m a : Option (List Byte)),
    (∀ i, (State.construct c m a).readSlot i = 0) ∧ (State.construct c m a).pc = 0 ∧
    (State.construct c m a).halted = false ∧ (State.construct c m a).events = [] ∧
    (State.construct c m a).config = c ∧
    (∀ i, (State.construct c m a).memByte i = (m.getD []).getD i.toNat 0) ∧
    (∀ k, (State.construct c m a).romByte k = (a.getD []).getD k.toNat 0) ∧
    (∀ n, 65536 ≤ n → (State.construct c m a).mem.read n = 0) ∧
    (∀ n, 4096 ≤ n → (State.construct c m a).aluRom.read n = 0)

/-- `State.reset`: every slot, `pc` and the address register 0, not halted, every byte of memory and of the ALU ROM 0, no event
emitted. That no image is supplied is the model's choice (log entries 2 and 3); the rest is 70_reset_and_hazards.md section 1. -/
def Obligations.ResetIsAllZero : Prop :=
  (∀ r, State.reset.readRole r = 0) ∧ State.reset.pc = 0 ∧ State.reset.ar = 0 ∧ State.reset.halted = false ∧
  (∀ a, State.reset.memByte a = 0) ∧ (∀ k, State.reset.romByte k = 0) ∧ State.reset.events = []

/-- R202: the first step fetches byte 0 of the program image. -/
def Obligations.EntryPointIsAddressZero : Prop :=
  ∀ (c : Config) (m a : Option (List Byte)),
    step (State.construct c m a) =
      exec (decodeByte ((m.getD []).getD 0 0)) { State.construct c m a with pc := 1 }

/-- The invariant of a run holds right after construction with any admissible parameters, and at `State.reset`. That
`State.reset` has the map `SAMPLE_MAP` and no images is the model's choice (log entries 1, 2 and 3). -/
def Obligations.ConstructionMeetsInvariant : Prop :=
  (∀ (c : Config) (m a : Option (List Byte)), c.wf = true → (State.construct c m a).Inv) ∧ State.reset.Inv

/-- Every step keeps the invariant: canonical memory and ROM, admissible parameters, slot 15 at 0, well-formed events, and one
Halt event exactly when the machine is halted. -/
def Obligations.EveryStepKeepsInvariant : Prop :=
  ∀ s t : State, s.Inv → step s = .next t → t.Inv

/-! ### Registers -/

/-- R27 and R28: the address register is gathered from four slots, 0 at reset; writing it writes those four and nothing else,
and reads back. -/
def Obligations.AddressRegisterRoundTrip : Prop :=
  (∀ s : State, s.ar.toNat = (s.readRole .ad0).toNat + 16 * (s.readRole .ad1).toNat + 256 * (s.readRole .ad2).toNat +
    4096 * (s.readRole .ad3).toNat) ∧
  (∀ (c : Config) (m a : Option (List Byte)), (State.construct c m a).ar = 0) ∧
  ∀ (s : State) (v : Addr), s.config.wf = true →
    (s.setAr v).ar = v ∧
    ((s.setAr v).readRole .ad0).toNat = v.toNat % 16 ∧ ((s.setAr v).readRole .ad1).toNat = v.toNat / 16 % 16 ∧
    ((s.setAr v).readRole .ad2).toNat = v.toNat / 256 % 16 ∧ ((s.setAr v).readRole .ad3).toNat = v.toNat / 4096 ∧
    RegsSameBut s.addressSlots s (s.setAr v) ∧ (s.setAr v).pc = s.pc ∧ MemorySame s (s.setAr v) ∧
    RestSame s (s.setAr v)

/-- The access table of 10_state.md section 1, as a limit: an instruction changes no register but those the table says it
writes, and what it does depends on no register but
those the table says it reads: with another value in an unread register, the outcome is the same but for that register, which
keeps its other value or is overwritten alike. -/
def Obligations.RegisterAccessTable : Prop :=
  ∀ (i : Instr) (s t : State), i.wellFormed = true → s.config.wf = true → exec i s = .next t →
    (∀ r, t.readRole r ≠ s.readRole r → WrittenBy s.config i r) ∧
    ∀ (r : Role) (v : Nib), ¬ ReadBy s.config i r →
      ∃ t', exec i (s.writeRole r v) = .next t' ∧ RegsSameBut [s.slotOf r] t t' ∧ t'.pc = t.pc ∧ MemorySame t t' ∧
        RestSame t t' ∧ (t'.readRole r = t.readRole r ∨ (t.readRole r = s.readRole r ∧ t'.readRole r = v))

/-- R22: `IMM` is slot 5, 0 at reset; a byte whose dst nibble is 5 loads its src nibble into it and no other byte changes it; a
MOV from it reads its stored value. -/
def Obligations.ImmediateRegisterIsLoadedByDstFive : Prop :=
  (∀ m : RegMap, m.index .imm = 5) ∧
  (∀ (c : Config) (m a : Option (List Byte)), (State.construct c m a).readSlot 5 = 0) ∧
  (∀ s t : State, s.config.wf = true → step s = .next t →
    ((s.memByte s.pc).toNat % 16 = 5 → (t.readSlot 5).toNat = (s.memByte s.pc).toNat / 16) ∧
    ((s.memByte s.pc).toNat % 16 ≠ 5 → t.readSlot 5 = s.readSlot 5)) ∧
  ∀ (d : Nib) (s : State), isMoveDst d = true →
    ∃ t, exec (.mov d 5) s = .next t ∧ t.readSlot d = s.readSlot 5

/-- R23: slot 15 is never written, so it is 0 in every run from construction and in every dump; index 15 as a source does not
read it. -/
def Obligations.SlotFifteenStaysZero : Prop :=
  (∀ m : RegMap, m.index .alur = 15) ∧
  (∀ s t : State, s.config.wf = true → step s = .next t → t.readSlot 15 = s.readSlot 15) ∧
  (∀ (c : Config) (m a : Option (List Byte)) (n : Nat) (t : State), c.wf = true →
    Host.Core.run Sys2Proof.core n (State.construct c m a) = .next t →
      t.readSlot 15 = 0 ∧ ∀ e ∈ t.events, e.regs.get 15 = 0) ∧
  ∀ (d v : Nib) (s t : State), isMoveDst d = true → s.config.wf = true → exec (.movalu d) s = .next t →
    ∃ t', exec (.movalu d) (s.writeSlot 15 v) = .next t' ∧ t'.readSlot d = t.readSlot d

/-- R30: `pc` is overwritten with `AR` by JMP, a taken JZ and JAL, and otherwise incremented, modulo 65536; it is 0 at reset;
no instruction but JAL in mode `LinkToAddress` lets `pc` into a register or into memory. -/
def Obligations.PcChangesByFetchAndJumpsOnly : Prop :=
  (∀ (c : Config) (m a : Option (List Byte)), (State.construct c m a).pc = 0) ∧
  (∀ s t : State, step s = .next t →
    ((decodeByte (s.memByte s.pc) = .jmp ∨ decodeByte (s.memByte s.pc) = .jal ∨
        (decodeByte (s.memByte s.pc) = .jz ∧ s.readRole .ctl = 0)) → t.pc = s.ar) ∧
    (¬ (decodeByte (s.memByte s.pc) = .jmp ∨ decodeByte (s.memByte s.pc) = .jal ∨
        (decodeByte (s.memByte s.pc) = .jz ∧ s.readRole .ctl = 0)) → t.pc.toNat = (s.pc.toNat + 1) % 65536)) ∧
  ∀ (i : Instr) (s t : State) (p : Addr), exec i s = .next t →
    ¬ (i = .jal ∧ s.config.jalLinkMode = .linkToAddress) →
      ∃ t', exec i { s with pc := p } = .next t' ∧ RegsSameBut [] t t' ∧ MemorySame t t'

/-- R31: the halted flag is 0 at reset; a HALT sets it and nothing else changes it; no instruction sees it; a halted machine
has no step. -/
def Obligations.HaltedIsSetByHaltOnlyAndFinal : Prop :=
  (∀ (c : Config) (m a : Option (List Byte)), (State.construct c m a).halted = false) ∧
  (∀ s t : State, step s = .next t → (t.halted = true ↔ decodeByte (s.memByte s.pc) = .halt)) ∧
  (∀ s : State, s.halted = true → step s = .fault .alreadyHalted ∧ stepRelation s = none) ∧
  ∀ (i : Instr) (s t : State) (h : Bool), exec i s = .next t →
    t.halted = (if i = .halt then true else s.halted) ∧
    exec i { s with halted := h } = .next { t with halted := if i = .halt then true else h }

/-! ### The move family -/

/-- R100: LDI n, the byte 16 n + 5, puts n into `IMM` and changes nothing else; no other instruction changes `IMM`. -/
def Obligations.LdiLoadsImmediate : Prop :=
  (∀ (n : Nib) (b : Byte), decodeByte b = .ldi n ↔ b.toNat = 16 * n.toNat + 5) ∧
  (∀ (n : Nib) (s : State), ∃ t, exec (.ldi n) s = .next t ∧ t.readRole .imm = n ∧ RegsSameBut [5] s t ∧
    t.pc = s.pc ∧ MemorySame s t ∧ RestSame s t) ∧
  ∀ (i : Instr) (s t : State), i.wellFormed = true → s.config.wf = true → exec i s = .next t →
    t.readRole .imm ≠ s.readRole .imm → ∃ n, i = .ldi n

/-- R101: MOV d, s, the byte 16 s + d, copies slot s into slot d and changes nothing else; a self-move changes nothing. -/
def Obligations.MovCopiesRegister : Prop :=
  ∀ d src : Nib, isMoveDst d = true → isMoveSrc src = true →
    (∀ b : Byte, decodeByte b = .mov d src ↔ b.toNat = 16 * src.toNat + d.toNat) ∧
    ∀ s : State, ∃ t, exec (.mov d src) s = .next t ∧ t.readSlot d = s.readSlot src ∧ RegsSameBut [d] s t ∧
      t.pc = s.pc ∧ MemorySame s t ∧ RestSame s t ∧ (d = src → t = s)

/-- R102, with the key of R81 and the mask of R94: MOV d, ALU, the byte 16 · 15 + d, puts the low nibble of the ROM byte at
the key `A | B<<4 | op<<8`, read before the write, into slot d and changes nothing else. -/
def Obligations.MovaluWritesRomLookup : Prop :=
  ∀ d : Nib, isMoveDst d = true →
    (∀ b : Byte, decodeByte b = .movalu d ↔ b.toNat = 240 + d.toNat) ∧
    ∀ s : State, ∃ t, exec (.movalu d) s = .next t ∧
      (t.readSlot d).toNat = (s.romByte (BitVec.ofNat 12 ((s.readRole .alua).toNat + 16 * (s.readRole .alub).toNat +
        256 * (s.readRole .aluop).toNat))).toNat % 16 ∧
      RegsSameBut [d] s t ∧ t.pc = s.pc ∧ MemorySame s t ∧ RestSame s t ∧
      ((∀ k, s.romByte k = 0) → t.readSlot d = 0)

/-! ### The memory and address commands -/

/-- R121: MEMRD, byte 0x0F, splits the byte at `AR` into `MLO` (low) and `MHI` (high) and changes nothing else; at its own
address it reads 0x0F. -/
def Obligations.MemrdLoadsByteAtAddress : Prop :=
  (∀ b : Byte, decodeByte b = .memrd ↔ b = 0x0F) ∧
  (∀ s : State, s.config.wf = true → ∃ t, exec .memrd s = .next t ∧
    (t.readRole .mlo).toNat = (s.memByte s.ar).toNat % 16 ∧ (t.readRole .mhi).toNat = (s.memByte s.ar).toNat / 16 ∧
    RegsSameBut [s.slotOf .mlo, s.slotOf .mhi] s t ∧ t.ar = s.ar ∧ t.pc = s.pc ∧ MemorySame s t ∧ RestSame s t) ∧
  ∀ s : State, s.config.wf = true → s.halted = false → s.memByte s.pc = 0x0F → s.ar = s.pc →
    ∃ t, step s = .next t ∧ t.readRole .mlo = 15 ∧ t.readRole .mhi = 0

/-- R122: MEMWR, byte 0x1F, stores `MHI:MLO` at `AR` if the guard permits that address, and changes no other byte; if the
guard refuses it, nothing changes at all. -/
def Obligations.MemwrStoresByteAtAddress : Prop :=
  (∀ b : Byte, decodeByte b = .memwr ↔ b = 0x1F) ∧
  (∀ s : State, s.mem.wf memSize = true → s.writeGuard s.ar = true → ∃ t, exec .memwr s = .next t ∧
    (t.memByte s.ar).toNat = (s.readRole .mlo).toNat + 16 * (s.readRole .mhi).toNat ∧
    (∀ a, a ≠ s.ar → t.memByte a = s.memByte a) ∧ RegsSameBut [] s t ∧ t.pc = s.pc ∧ RestSame s t) ∧
  ∀ s : State, s.writeGuard s.ar = false → exec .memwr s = .next s

/-- R48: the guard gates MEMWR and nothing else (a fetch and a MEMRD read the same bytes under any guard), depends on the
address alone, and is always true in this design. -/
def Obligations.WriteGuardGatesMemwrOnly : Prop :=
  (∀ (s : State) (a : Addr), s.config.guardRefuses = [] → s.writeGuard a = true) ∧
  (∀ (s t : State) (a : Addr), s.config = t.config → s.writeGuard a = t.writeGuard a) ∧
  (∀ s : State, s.writeGuard s.ar = false → exec .memwr s = .next s) ∧
  (∀ s : State, s.mem.wf memSize = true → s.writeGuard s.ar = true →
    ∃ t, exec .memwr s = .next t ∧ t.memByte s.ar = s.dataByte) ∧
  (∀ (s : State) (l : List Addr) (a : Addr),
    State.memByte { s with config := { s.config with guardRefuses := l } } a = s.memByte a) ∧
  ∀ (i : Instr) (s t : State) (l : List Addr), i ≠ .memwr → exec i s = .next t →
    exec i { s with config := { s.config with guardRefuses := l } } =
      .next { t with config := { t.config with guardRefuses := l } }

/-- R123 and R124: INCA, byte 0x2F, and DECA, byte 0x3F, step the address register by one modulo 65536, wrapping both ways, and
change nothing else. -/
def Obligations.AddressStepsModulo : Prop :=
  (∀ b : Byte, decodeByte b = .inca ↔ b = 0x2F) ∧ (∀ b : Byte, decodeByte b = .deca ↔ b = 0x3F) ∧
  (∀ s : State, s.config.wf = true → ∃ t, exec .inca s = .next t ∧ t.ar.toNat = (s.ar.toNat + 1) % 65536 ∧
    RegsSameBut s.addressSlots s t ∧ t.pc = s.pc ∧ MemorySame s t ∧ RestSame s t) ∧
  ∀ s : State, s.config.wf = true → ∃ t, exec .deca s = .next t ∧ t.ar.toNat = (s.ar.toNat + 65535) % 65536 ∧
    RegsSameBut s.addressSlots s t ∧ t.pc = s.pc ∧ MemorySame s t ∧ RestSame s t

/-- A byte stored by MEMWR and read back by MEMRD leaves every register as it was (10_state.md section 1, the data register of
`MLO` and `MHI`). -/
def Obligations.StoreThenLoadRestoresRegisters : Prop :=
  ∀ s : State, s.config.wf = true → s.mem.wf memSize = true → s.writeGuard s.ar = true →
    ∃ t u, exec .memwr s = .next t ∧ exec .memrd t = .next u ∧ RegsSameBut [] s u ∧ MemorySame t u

/-! ### The control-transfer commands -/

/-- R140: JMP, byte 0x4F, puts `AR` into `pc` and changes nothing else; at `AR` = its own address + 1 it acts as a no-op, at
`AR` = its own address it loops. -/
def Obligations.JmpGoesToAddress : Prop :=
  (∀ b : Byte, decodeByte b = .jmp ↔ b = 0x4F) ∧
  (∀ s : State, ∃ t, exec .jmp s = .next t ∧ t.pc = s.ar ∧ RegsSameBut [] s t ∧ MemorySame s t ∧ RestSame s t) ∧
  ∀ s : State, s.halted = false → s.memByte s.pc = 0x4F →
    (s.ar = s.pc → step s = .next s) ∧ (s.ar = s.pc + 1 → step s = .next { s with pc := s.pc + 1 })

/-- R141: JZ, byte 0x5F, jumps to `AR` if `CTL` is 0 and else keeps the incremented `pc`; it changes nothing else. -/
def Obligations.JzJumpsIfControlIsZero : Prop :=
  (∀ b : Byte, decodeByte b = .jz ↔ b = 0x5F) ∧
  (∀ s : State, ∃ t, exec .jz s = .next t ∧ (s.readRole .ctl = 0 → t.pc = s.ar) ∧ (s.readRole .ctl ≠ 0 → t.pc = s.pc) ∧
    RegsSameBut [] s t ∧ MemorySame s t ∧ RestSame s t) ∧
  ∀ s : State, s.halted = false → s.memByte s.pc = 0x5F → s.readRole .ctl ≠ 0 →
    step s = .next { s with pc := s.pc + 1 }

/-- R142: JAL, byte 0x6F, puts `AR` into `pc`; in mode `LinkToAddress` the JAL's own address + 1, modulo 65536, goes into `AR`,
in mode `Discard` no register changes; nothing else changes in either mode. -/
def Obligations.JalLinksThroughAddress : Prop :=
  (∀ b : Byte, decodeByte b = .jal ↔ b = 0x6F) ∧
  (∀ s : State, s.config.wf = true → s.config.jalLinkMode = .linkToAddress → ∃ t, exec .jal s = .next t ∧
    t.pc = s.ar ∧ t.ar = s.pc ∧ RegsSameBut s.addressSlots s t ∧ MemorySame s t ∧ RestSame s t) ∧
  (∀ s : State, s.config.jalLinkMode = .discard → ∃ t, exec .jal s = .next t ∧
    t.pc = s.ar ∧ RegsSameBut [] s t ∧ MemorySame s t ∧ RestSame s t) ∧
  ∀ s : State, s.config.wf = true → s.halted = false → s.memByte s.pc = 0x6F →
    ∃ t, step s = .next t ∧ t.pc = s.ar ∧
      (s.config.jalLinkMode = .linkToAddress → t.ar.toNat = (s.pc.toNat + 1) % 65536) ∧
      (s.config.jalLinkMode = .discard → t.ar = s.ar)

/-- A JMP that runs with `AR` still holding the link of a JAL returns to the byte after the JAL (43_control_commands.md, corner
cases of JAL). -/
def Obligations.JmpReturnsFromJal : Prop :=
  ∀ s t u : State, s.config.wf = true → s.config.jalLinkMode = .linkToAddress → s.memByte s.pc = 0x6F →
    step s = .next t → u.halted = false → u.memByte u.pc = 0x4F → u.ar = t.ar →
      ∃ v, step u = .next v ∧ v.pc = s.pc + 1

/-! ### The reserved, break and halt commands -/

/-- R160: each of the seven reserved commands changes nothing; its step only increments `pc`. -/
def Obligations.ReservedCommandsAreNoOps : Prop :=
  (∀ (s : State) (i : Instr), i ∈ [Instr.cmd7, .cmd8, .cmd9, .cmd10, .cmd11, .cmd12, .cmd13] → exec i s = .next s) ∧
  ∀ (s : State) (k : Nat), 7 ≤ k → k ≤ 13 → s.halted = false → (s.memByte s.pc).toNat = 16 * k + 15 →
    step s = .next { s with pc := s.pc + 1 }

/-- R161: BRK, byte 0xEF, emits `Break(pc, regs)` with the 16 stored slots in index order, and changes nothing else. -/
def Obligations.BrkEmitsBreakAndContinues : Prop :=
  (∀ b : Byte, decodeByte b = .brk ↔ b = 0xEF) ∧
  (∀ s : State, ∃ r : RegDump, (∀ i : Nib, (r.get i).toNat = (s.readSlot i).toNat) ∧
    exec .brk s = .next { s with events := s.events ++ [.brk s.pc r] }) ∧
  ∀ s : State, s.halted = false → s.memByte s.pc = 0xEF → ∃ r : RegDump,
    (∀ i : Nib, (r.get i).toNat = (s.readSlot i).toNat) ∧
    step s = .next { s with pc := s.pc + 1, events := s.events ++ [.brk (s.pc + 1) r] }

/-- R162: HALT, byte 0xFF, emits `Halt(pc, regs, mem)` with the 16 stored slots and all 65536 memory bytes in order, sets
`halted` and changes nothing else; there is no further step. -/
def Obligations.HaltEmitsDumpAndStops : Prop :=
  (∀ b : Byte, decodeByte b = .halt ↔ b = 0xFF) ∧
  ∀ s : State, ∃ (r : RegDump) (m : Memory) (t : State),
    (∀ i : Nib, (r.get i).toNat = (s.readSlot i).toNat) ∧
    (Event.halt s.pc r m).memBytes.length = 65536 ∧
    (∀ a : Addr, (Event.halt s.pc r m).memBytes[a.toNat]? = some (s.memByte a)) ∧
    t = { s with halted := true, events := s.events ++ [.halt s.pc r m] } ∧
    exec .halt s = .next t ∧ step t = .fault .alreadyHalted

/-- R163: a run ends exactly when a HALT executes: the state after `n` steps has no further step exactly if it is halted,
which it is exactly if the last step ran a HALT. -/
def Obligations.RunEndsExactlyAtHalt : Prop :=
  ∀ (s t u : State) (n : Nat), Host.Core.run Sys2Proof.core n s = .next t → step t = .next u →
    ((¬ u.Safe) ↔ u.halted = true) ∧ (u.halted = true ↔ decodeByte (t.memByte t.pc) = .halt)

/-! ### Memory, the ALU ROM -/

/-- R32: the only operation that writes main memory is MEMWR at `AR`, where the guard permits it; the only instructions whose
effect depends on it are MEMRD (and the dump of HALT), beside fetch; its reset value is the normalised image. -/
def Obligations.MemoryIsWrittenByMemwrOnly : Prop :=
  (∀ s t : State, s.mem.wf memSize = true → step s = .next t → ∀ a, t.memByte a =
    if decodeByte (s.memByte s.pc) = .memwr ∧ s.writeGuard s.ar = true ∧ a = s.ar then s.dataByte else s.memByte a) ∧
  (∀ (i : Instr) (s t : State) (m : Memory), i ≠ .memrd → i ≠ .halt → exec i s = .next t →
    ∃ t', exec i { s with mem := m } = .next t' ∧ RegsSameBut [] t t' ∧ t'.pc = t.pc ∧ RestSame t t') ∧
  ∀ (c : Config) (m a : Option (List Byte)) (i : Addr), (State.construct c m a).memByte i = (m.getD []).getD i.toNat 0

/-- R53: a byte stored at the address of the instruction that follows the MEMWR is the one the next step runs. -/
def Obligations.StoreIsSeenByNextFetch : Prop :=
  ∀ (s : State) (b : Byte), s.mem.wf memSize = true → s.halted = false → s.memByte s.pc = 0x1F → s.ar = s.pc + 1 →
    s.writeGuard s.ar = true → b.toNat = (s.readRole .mlo).toNat + 16 * (s.readRole .mhi).toNat →
      ∃ t, step s = .next t ∧ t.pc = s.pc + 1 ∧ t.memByte t.pc = b ∧
        step t = exec (decodeByte b) { t with pc := s.pc + 2 }

/-- R55: the ALU ROM is the normalised image and never changes in a run (nor do the construction parameters); and only
MOVALU's effect depends on it (R34). -/
def Obligations.AluRomIsReadOnly : Prop :=
  (∀ (c : Config) (m a : Option (List Byte)) (k : RomKey),
    (State.construct c m a).romByte k = (a.getD []).getD k.toNat 0) ∧
  (∀ (n : Nat) (s t : State), Host.Core.run Sys2Proof.core n s = .next t →
    t.aluRom = s.aluRom ∧ t.config = s.config) ∧
  ∀ (i : Instr) (s t : State) (m : Memory), (∀ d, i ≠ .movalu d) → exec i s = .next t →
    exec i { s with aluRom := m } = .next { t with aluRom := m }

/-- R82 to R93: the standard ALU table, operation by operation, with `A` and `B` as numbers below 16. -/
def Obligations.StandardAluTable : Prop :=
  stdAluImage.length = 4096 ∧
  ∀ a b op : Nib, ∀ r : Nat, r = (stdAluRom.read (a.toNat + 16 * b.toNat + 256 * op.toNat)).toNat →
    (op = 0 → r = (a.toNat + b.toNat) % 16) ∧ (op = 1 → r = (a.toNat + b.toNat) / 16) ∧
    (op = 2 → r = a.toNat * b.toNat % 16) ∧ (op = 3 → r = a.toNat * b.toNat / 16) ∧
    (op = 4 → r = a.toNat &&& b.toNat) ∧ (op = 5 → r = a.toNat ||| b.toNat) ∧ (op = 6 → r = a.toNat ^^^ b.toNat) ∧
    (7 ≤ op.toNat → op.toNat ≤ 14 → r = 0) ∧
    (op = 15 → b = 0 → r = if a = 0 then 1 else 0) ∧ (op = 15 → b = 1 → r = 15 - a.toNat) ∧
    (op = 15 → 2 ≤ b.toNat → r = 0)

/-- R95: the ROM image decides what MOVALU computes: 0 with no image, the operations of the standard table with
`STD_ALU_ROM`, and whatever it holds with any other image. -/
def Obligations.RomImageDecidesAluValue : Prop :=
  ∀ (c : Config) (m img : Option (List Byte)) (d : Nib) (s : State), isMoveDst d = true →
    s.aluRom = (State.construct c m img).aluRom → ∃ t, exec (.movalu d) s = .next t ∧
      (t.readSlot d).toNat = ((img.getD []).getD ((s.readRole .alua).toNat + 16 * (s.readRole .alub).toNat +
        256 * (s.readRole .aluop).toNat) 0).toNat % 16 ∧
      (img = none → t.readSlot d = 0) ∧
      (img = some stdAluImage → t.readSlot d = binop (s.readRole .aluop) (s.readRole .alua) (s.readRole .alub))

/-- Facts of 40_alu_rom.md section 3 that programs use: the two halves of a sum and of a product, subtraction in three
lookups, decrement and doubling. -/
def Obligations.StandardAluFacts : Prop :=
  ∀ f : Nat → Nat → Nat → Nat, (∀ op a b, f op a b = (stdAluRom.read (a + 16 * b + 256 * op)).toNat) →
    ∀ a b : Nat, a < 16 → b < 16 →
      a + b = f 1 a b * 16 + f 0 a b ∧ a * b = f 3 a b * 16 + f 2 a b ∧
      f 0 a (f 0 (f 15 b 1) 1) = (a + 16 - b) % 16 ∧ f 0 a 15 = (a + 15) % 16 ∧ f 0 a a = 2 * a % 16

/-! ### Runs, and the register map -/

/-- R204: a zero memory image, or none, runs for ever, each step only incrementing `pc` with its wrap; and so does any region
of zero bytes. -/
def Obligations.ZeroMemoryRunsForever : Prop :=
  (∀ (n : Nat) (s : State), s.halted = false → (∀ k, k < n → s.memByte (s.pc + BitVec.ofNat 16 k) = 0) →
    Host.Core.run Sys2Proof.core n s = .next { s with pc := s.pc + BitVec.ofNat 16 n }) ∧
  ∀ (c : Config) (m a : Option (List Byte)) (n : Nat), (∀ b ∈ m.getD [], b = 0) →
    Host.Core.run Sys2Proof.core n (State.construct c m a) =
      .next { State.construct c m a with pc := BitVec.ofNat 16 n }

/-- A JMP to itself runs for ever without changing anything (70_reset_and_hazards.md section 5). -/
def Obligations.JmpToItselfHangs : Prop :=
  ∀ (n : Nat) (s : State), s.halted = false → s.memByte s.pc = 0x4F → s.ar = s.pc →
    Host.Core.run Sys2Proof.core n s = .next s

/-- What `exec` does depends on the roles of the slots an instruction names, not on the register map: two instances that agree
role by role agree again after the same command, or the same move between roles (30_encoding.md section 4; 92_eei_decisions.md
D1). It is about `exec` and not `step`: one MOV byte may name different roles under two maps. The MOV and MOVALU clauses range
over all roles, so also over `IMM` and `ALUR` as destination and `ALUR` as source; no byte decodes to those terms, and what
`exec` does on them is the model's choice (DESIGN CHOICE, log entry 10), no rule of the spec. -/
def Obligations.BehaviourDependsOnRolesOnly : Prop :=
  ∀ s t : State, RoleEquivalent s t →
    (∀ i : Instr, (∀ d, i ≠ .movalu d) → (∀ d src, i ≠ .mov d src) →
      ∃ s' t', exec i s = .next s' ∧ exec i t = .next t' ∧ RoleEquivalent s' t') ∧
    (∀ r : Role, ∃ s' t', exec (.movalu (s.slotOf r)) s = .next s' ∧ exec (.movalu (t.slotOf r)) t = .next t' ∧
      RoleEquivalent s' t') ∧
    ∀ r q : Role, ∃ s' t', exec (.mov (s.slotOf r) (s.slotOf q)) s = .next s' ∧
      exec (.mov (t.slotOf r) (t.slotOf q)) t = .next t' ∧ RoleEquivalent s' t'
end

