-- ==== Sys2Proof/Laws/Memory.lean ====
section
/-! SUPPORT. What reading, writing and loading a byte array do, once for every caller. -/

namespace Sys2Proof.Machine

@[simp] theorem Memory.read_nil (a : Nat) : Memory.read [] a = 0 := rfl

/-- The canonical form from `lo` on is the canonical form from any lower index on. -/
theorem Memory.wfFrom_mono {size lo lo' : Nat} {m : Memory} (h : lo' ≤ lo) (hm : Memory.wfFrom size lo m = true) :
    Memory.wfFrom size lo' m = true := by
  cases m with
  | nil => rfl
  | cons c m =>
    simp only [Memory.wfFrom, Bool.and_eq_true, decide_eq_true_eq] at hm ⊢
    exact ⟨⟨⟨by omega, hm.1.1.2⟩, hm.1.2⟩, hm.2⟩

/-- Below its first possible entry, a canonical array reads as unlisted. -/
theorem Memory.read_of_lt {size lo a : Nat} {m : Memory} (hm : Memory.wfFrom size lo m = true) (h : a < lo) :
    m.read a = Memory.unlisted := by
  induction m generalizing lo with
  | nil => rfl
  | cons c m ih =>
    simp only [Memory.wfFrom, Bool.and_eq_true, decide_eq_true_eq] at hm
    have hne : c.1 ≠ a := by omega
    simp only [Memory.read, hne, if_false]
    exact ih hm.2 (by omega)

/-- Above the array's size, a canonical array reads as unlisted. -/
theorem Memory.read_of_size_le {size lo a : Nat} {m : Memory} (hm : Memory.wfFrom size lo m = true) (h : size ≤ a) :
    m.read a = Memory.unlisted := by
  induction m generalizing lo with
  | nil => rfl
  | cons c m ih =>
    simp only [Memory.wfFrom, Bool.and_eq_true, decide_eq_true_eq] at hm
    have hne : c.1 ≠ a := by omega
    simp only [Memory.read, hne, if_false]
    exact ih hm.2

/-- Reading what was just stored. -/
theorem Memory.read_write_self {size lo : Nat} {m : Memory} (hm : Memory.wfFrom size lo m = true) (a : Nat) (v : Byte) :
    (m.write a v).read a = v := by
  induction m generalizing lo with
  | nil =>
    unfold Memory.write
    split
    · next h => simp [h, Memory.unlisted]
    · simp [Memory.read]
  | cons c m ih =>
    obtain ⟨k, b⟩ := c
    simp only [Memory.wfFrom, Bool.and_eq_true, decide_eq_true_eq] at hm
    rcases Nat.lt_trichotomy k a with h | h | h
    · simp only [Memory.write, h, if_true, Memory.read, Nat.ne_of_lt h, if_false]
      exact ih hm.2
    · subst h
      by_cases hv : v = Memory.unlisted
      · subst hv
        simpa [Memory.write] using Memory.read_of_lt hm.2 (Nat.lt_succ_self k)
      · simp [Memory.write, hv, Memory.read]
    · by_cases hv : v = Memory.unlisted
      · subst hv
        have h1 : ¬ k < a := by omega
        have h2 : k ≠ a := by omega
        simp only [Memory.write, h1, h2, if_false, if_true, Memory.read]
        exact Memory.read_of_lt hm.2 (by omega)
      · have h1 : ¬ k < a := by omega
        have h2 : k ≠ a := by omega
        simp [Memory.write, h1, h2, hv, Memory.read]

/-- Storing leaves every other index alone. -/
theorem Memory.read_write_ne (m : Memory) {a b : Nat} (v : Byte) (h : b ≠ a) : (m.write a v).read b = m.read b := by
  have hab : a ≠ b := fun e => h e.symm
  induction m with
  | nil =>
    unfold Memory.write
    split
    · rfl
    · simp [Memory.read, hab]
  | cons c m ih =>
    obtain ⟨k, x⟩ := c
    unfold Memory.write
    split
    · simp only [Memory.read, ih]
    · split
      · next hk =>
        subst hk
        split <;> simp [Memory.read, hab]
      · split
        · rfl
        · simp [Memory.read, hab]

/-- Storing keeps the canonical form. -/
theorem Memory.write_wfFrom {size lo a : Nat} {m : Memory} (hm : Memory.wfFrom size lo m = true) (v : Byte)
    (hlo : lo ≤ a) (ha : a < size) : Memory.wfFrom size lo (m.write a v) = true := by
  induction m generalizing lo with
  | nil =>
    unfold Memory.write
    split
    · rfl
    · next hv => simp [Memory.wfFrom, hlo, ha, hv]
  | cons c m ih =>
    obtain ⟨k, x⟩ := c
    simp only [Memory.wfFrom, Bool.and_eq_true, decide_eq_true_eq] at hm
    unfold Memory.write
    split
    · next h =>
      simp only [Memory.wfFrom, Bool.and_eq_true, decide_eq_true_eq]
      exact ⟨hm.1, ih hm.2 (by omega)⟩
    · split
      · next h =>
        subst h
        split
        · exact Memory.wfFrom_mono (by omega) hm.2
        · next hv =>
          simp only [Memory.wfFrom, Bool.and_eq_true, decide_eq_true_eq]
          exact ⟨⟨hm.1.1, hv⟩, hm.2⟩
      · split
        · simp only [Memory.wfFrom, Bool.and_eq_true, decide_eq_true_eq]
          exact hm
        · next hv =>
          simp only [Memory.wfFrom, Bool.and_eq_true, decide_eq_true_eq]
          exact ⟨⟨⟨hlo, ha⟩, hv⟩, ⟨⟨by omega, hm.1.1.2⟩, hm.1.2⟩, hm.2⟩

/-- Storing inside the array keeps the canonical form. -/
theorem Memory.write_wf {size a : Nat} {m : Memory} (hm : m.wf size = true) (v : Byte) (ha : a < size) :
    (m.write a v).wf size = true :=
  Memory.write_wfFrom hm v (Nat.zero_le a) ha

/-- Two canonical arrays that read alike are equal. -/
theorem Memory.ext_of_wfFrom {size lo : Nat} {m n : Memory} (hm : Memory.wfFrom size lo m = true)
    (hn : Memory.wfFrom size lo n = true) (h : ∀ a, m.read a = n.read a) : m = n := by
  induction m generalizing lo n with
  | nil =>
    cases n with
    | nil => rfl
    | cons c n =>
      simp only [Memory.wfFrom, Bool.and_eq_true, decide_eq_true_eq] at hn
      have := h c.1
      simp only [Memory.read, if_true] at this
      exact absurd this.symm hn.1.2
  | cons c m ih =>
    obtain ⟨k, x⟩ := c
    simp only [Memory.wfFrom, Bool.and_eq_true, decide_eq_true_eq] at hm
    cases n with
    | nil =>
      have := h k
      simp only [Memory.read, if_true] at this
      exact absurd this hm.1.2
    | cons d n =>
      obtain ⟨j, y⟩ := d
      simp only [Memory.wfFrom, Bool.and_eq_true, decide_eq_true_eq] at hn
      have hk := h k
      have hj := h j
      have hkj : k = j := by
        rcases Nat.lt_trichotomy k j with hlt | heq | hgt
        · have : ¬ j = k := by omega
          simp only [Memory.read, if_true, this, if_false] at hk
          rw [Memory.read_of_lt hn.2 (by omega)] at hk
          exact absurd hk hm.1.2
        · exact heq
        · have : ¬ k = j := by omega
          simp only [Memory.read, if_true, this, if_false] at hj
          rw [Memory.read_of_lt hm.2 (by omega)] at hj
          exact absurd hj.symm hn.1.2
      subst hkj
      have hxy : x = y := by simpa [Memory.read] using hk
      subst hxy
      congr 1
      refine ih hm.2 hn.2 fun a => ?_
      by_cases hak : k = a
      · subst hak
        rw [Memory.read_of_lt hm.2 (by omega), Memory.read_of_lt hn.2 (by omega)]
      · simpa [Memory.read, hak] using h a

/-- Equal contents are equal data. -/
theorem Memory.ext_of_wf {size : Nat} {m n : Memory} (hm : m.wf size = true) (hn : n.wf size = true)
    (h : ∀ a, m.read a = n.read a) : m = n :=
  Memory.ext_of_wfFrom hm hn h

/-- A canonical array is all zero exactly if it lists nothing. -/
theorem Memory.eq_nil_of_wf {size : Nat} {m : Memory} (hm : m.wf size = true) (h : ∀ a, m.read a = 0) : m = [] :=
  Memory.ext_of_wf hm rfl h

/-- Loading bytes gives a canonical array. -/
theorem Memory.ofBytesFrom_wfFrom (size lo : Nat) (bs : List Byte) (h : lo + bs.length ≤ size) :
    Memory.wfFrom size lo (Memory.ofBytesFrom lo bs) = true := by
  induction bs generalizing lo with
  | nil => rfl
  | cons b bs ih =>
    rw [List.length_cons] at h
    have hr := ih (lo + 1) (by omega)
    unfold Memory.ofBytesFrom
    split
    · exact Memory.wfFrom_mono (by omega) hr
    · next hb =>
      simp only [Memory.wfFrom, Bool.and_eq_true, decide_eq_true_eq]
      exact ⟨⟨⟨Nat.le_refl lo, by omega⟩, hb⟩, hr⟩

/-- What an array loaded from index `lo` on reads as. -/
theorem Memory.ofBytesFrom_read (lo : Nat) (bs : List Byte) (i : Nat) :
    (Memory.ofBytesFrom lo bs).read (lo + i) = bs.getD i 0 := by
  induction bs generalizing lo i with
  | nil => rfl
  | cons b bs ih =>
    unfold Memory.ofBytesFrom
    cases i with
    | zero =>
      split
      · next hb =>
        have := Memory.read_of_lt (Memory.ofBytesFrom_wfFrom (lo + 1 + bs.length) (lo + 1) bs (Nat.le_refl _))
          (Nat.lt_succ_self lo)
        simpa [hb] using this
      · simp [Memory.read]
    | succ i =>
      have hr := ih (lo + 1) i
      rw [show lo + 1 + i = lo + (i + 1) from by omega] at hr
      split
      · simpa using hr
      · have : lo ≠ lo + (i + 1) := by omega
        simpa [Memory.read, this] using hr

/-- A normalised image is in canonical form (R33). -/
theorem Memory.ofImage_wf (size : Nat) (img : Option (List Byte)) : (Memory.ofImage size img).wf size = true := by
  refine Memory.ofBytesFrom_wfFrom size 0 _ ?_
  rw [List.length_take]
  omega

/-- What a normalised image reads as (R33): the image's byte below both lengths, 0x00 elsewhere. -/
theorem Memory.ofImage_read (size : Nat) (img : Option (List Byte)) (i : Nat) :
    (Memory.ofImage size img).read i = if i < size then (img.getD []).getD i 0 else 0 := by
  have h := Memory.ofBytesFrom_read 0 ((img.getD []).take size) i
  rw [Nat.zero_add] at h
  rw [Memory.ofImage, h]
  split
  · next hi => simp [List.getD_eq_getElem?_getD, hi]
  · next hi => simp [List.getD_eq_getElem?_getD, hi]

end Sys2Proof.Machine
end

