-- ==== Sys2Proof/Laws/Alu.lean ====
section
/-! SUPPORT. Reading the standard ALU table without computing its 4096 entries. -/

namespace Sys2Proof.Machine

/-- The standard ROM at a key is the Builder's byte for that key. -/
theorem stdAluRom_read (k : Nat) (h : k < romSize) : stdAluRom.read k = stdAluByte k := by
  rw [stdAluRom, Memory.ofImage_read, if_pos h]
  simp [stdAluImage, List.getD_eq_getElem?_getD, h]

/-- The standard ROM is in canonical form. -/
theorem stdAluRom_wf : stdAluRom.wf romSize = true := Memory.ofImage_wf romSize _

/-- The Builder's byte at a packed key is the operation applied to the packed operands. -/
theorem stdAluByte_pack (op a b : Nib) : stdAluByte (a.toNat + 16 * b.toNat + 256 * op.toNat) = (binop op a b).setWidth 8 := by
  have ha := a.isLt
  have hb := b.isLt
  have ho := op.isLt
  have h1 : BitVec.ofNat 4 ((a.toNat + 16 * b.toNat + 256 * op.toNat) / 256) = op := by
    apply BitVec.eq_of_toNat_eq; simp only [BitVec.toNat_ofNat]; omega
  have h2 : BitVec.ofNat 4 (a.toNat + 16 * b.toNat + 256 * op.toNat) = a := by
    apply BitVec.eq_of_toNat_eq; simp only [BitVec.toNat_ofNat]; omega
  have h3 : BitVec.ofNat 4 ((a.toNat + 16 * b.toNat + 256 * op.toNat) / 16) = b := by
    apply BitVec.eq_of_toNat_eq; simp only [BitVec.toNat_ofNat]; omega
  rw [stdAluByte, h1, h2, h3]

end Sys2Proof.Machine
end

