-- ==== Sys2Proof/Laws/Config.lean ====
section
/-! SUPPORT. An admissible register map never binds two roles to one slot; the guard's list stands for any predicate. -/

namespace Sys2Proof

/-- Every role is in the list of roles. -/
theorem Role.mem_all (r : Role) : r ∈ Role.all := by cases r <;> decide

/-- In an admissible map, roles with one index are one role (R6). -/
theorem RegMap.index_inj {m : RegMap} (h : m.admissible = true) {r q : Role} (e : m.index r = m.index q) : r = q :=
  List.inj_on_of_nodup_map (of_decide_eq_true h) (Role.mem_all r) (Role.mem_all q) e

/-- In an admissible map, different roles have different indices. -/
theorem RegMap.index_ne {m : RegMap} (h : m.admissible = true) {r q : Role} (e : r ≠ q) : m.index r ≠ m.index q :=
  fun he => e (RegMap.index_inj h he)

/-- An instance with admissible parameters has an admissible map. -/
theorem Config.admissible_of_wf {c : Config} (h : c.wf = true) : c.regMap.admissible = true := by
  simp only [Config.wf, Bool.and_eq_true] at h
  exact h.1

/-- The parameters of reset are admissible. -/
theorem Machine.resetConfig_wf : Machine.resetConfig.wf = true := by decide

/-- A list whose members rise strictly passes the check. -/
theorem strictlyRising_of_pairwise : ∀ {l : List Addr}, l.Pairwise (fun a b => a.toNat < b.toNat) → strictlyRising l = true
  | [], _ => rfl
  | [_], _ => rfl
  | a :: b :: l, h => by
    have h' := List.pairwise_cons.mp h
    simp only [strictlyRising, Bool.and_eq_true, decide_eq_true_eq]
    exact ⟨h'.1 b (by simp), strictlyRising_of_pairwise h'.2⟩

/-- Every write guard, a function from a 16-bit address to a Boolean (R6), has a list that stands for it. -/
theorem guardList_exists (f : Addr → Bool) : ∃ l : List Addr, strictlyRising l = true ∧ ∀ a, f a = !l.contains a := by
  refine ⟨((List.range 65536).map (BitVec.ofNat 16)).filter (fun a => !f a), ?_, fun a => ?_⟩
  · refine strictlyRising_of_pairwise (List.Pairwise.filter _ (List.pairwise_map.mpr ?_))
    refine List.Pairwise.imp_of_mem (fun {a b} ha hb hab => ?_) (List.pairwise_lt_range (n := 65536))
    rw [List.mem_range] at ha hb
    simp only [BitVec.toNat_ofNat]
    omega
  · have hmem : a ∈ (List.range 65536).map (BitVec.ofNat 16) :=
      List.mem_map.mpr ⟨a.toNat, List.mem_range.mpr a.isLt, by simp⟩
    cases hf : f a <;> simp [hf]
    · exact ⟨a.toNat, a.isLt, by simp⟩

end Sys2Proof
end

