-- ==== Sys2Proof/Laws/Decode.lean ====
section
/-! SUPPORT. The two fields of a byte as numbers, and what the decoder gives in each case of 30_encoding.md R63. -/

namespace Sys2Proof

theorem srcField_toNat (b : Byte) : (srcField b).toNat = b.toNat / 16 := by
  have := b.isLt
  rw [srcField, BitVec.extractLsb'_toNat, Nat.shiftRight_eq_div_pow]
  omega

theorem dstField_toNat (b : Byte) : (dstField b).toNat = b.toNat % 16 := by
  rw [dstField, BitVec.extractLsb'_toNat, Nat.shiftRight_eq_div_pow]
  omega

/-- A byte is its two fields. -/
theorem toNat_eq_fields (b : Byte) : b.toNat = 16 * (srcField b).toNat + (dstField b).toNat := by
  rw [srcField_toNat, dstField_toNat]
  omega

/-- Two bytes with the same fields are equal. -/
theorem fields_inj {b c : Byte} (hs : srcField b = srcField c) (hd : dstField b = dstField c) : b = c :=
  BitVec.eq_of_toNat_eq (by rw [toNat_eq_fields b, toNat_eq_fields c, hs, hd])

/-- The fields of the byte that is built from two fields. -/
theorem fields_fieldsByte : ∀ src dst : Nib, srcField (fieldsByte src dst) = src ∧ dstField (fieldsByte src dst) = dst := by
  decide

end Sys2Proof
end

