-- ==== Sys2Proof/Laws/Slots.lean ====
section
/-! SUPPORT. Reading after writing one of sixteen slots. -/

namespace Sys2Proof.Machine

/-- The sixteen cases of a nibble. -/
theorem nib_cases {P : Nib → Prop} (h : ∀ n : Fin 16, P (BitVec.ofFin n)) (i : Nib) : P i := h i.toFin

@[simp] theorem Slots.get_set_self {α : Type} (r : Slots α) (i : Nib) (v : α) : (r.set i v).get i = v := by
  revert i
  refine nib_cases fun n => ?_
  fin_cases n <;> rfl

theorem Slots.get_set_ne {α : Type} (r : Slots α) {i j : Nib} (v : α) (h : j ≠ i) : (r.set i v).get j = r.get j := by
  revert i j
  refine fun {i} => nib_cases (P := fun i => ∀ {j}, j ≠ i → (r.set i v).get j = r.get j) (fun n => ?_) i
  refine fun {j} => nib_cases (P := fun j => j ≠ BitVec.ofFin n → (r.set (BitVec.ofFin n) v).get j = r.get j) (fun m => ?_) j
  fin_cases n <;> fin_cases m <;> first | (intro _; rfl) | (intro h; exact absurd rfl h)

/-- Writing back what an index holds changes nothing. -/
@[simp] theorem Slots.set_get {α : Type} (r : Slots α) (i : Nib) : r.set i (r.get i) = r := by
  revert i
  refine nib_cases fun n => ?_
  fin_cases n <;> rfl

@[simp] theorem Slots.get_map {α β : Type} (f : α → β) (r : Slots α) (i : Nib) : (r.map f).get i = f (r.get i) := by
  revert i
  refine nib_cases fun n => ?_
  fin_cases n <;> rfl

@[simp] theorem Slots.get_replicate {α : Type} (v : α) (i : Nib) : (Slots.replicate v).get i = v := by
  revert i
  refine nib_cases fun n => ?_
  fin_cases n <;> rfl

/-- What the list of values holds is at some index. -/
theorem Slots.exists_get_of_mem_toList {α : Type} {r : Slots α} {v : α} (h : v ∈ r.toList) : ∃ i, r.get i = v := by
  simp only [Slots.toList, List.cons_append, List.nil_append, List.mem_cons, List.not_mem_nil, or_false] at h
  rcases h with h | h | h | h | h | h | h | h | h | h | h | h | h | h | h | h
  · exact ⟨0, h.symm⟩
  · exact ⟨1, h.symm⟩
  · exact ⟨2, h.symm⟩
  · exact ⟨3, h.symm⟩
  · exact ⟨4, h.symm⟩
  · exact ⟨5, h.symm⟩
  · exact ⟨6, h.symm⟩
  · exact ⟨7, h.symm⟩
  · exact ⟨8, h.symm⟩
  · exact ⟨9, h.symm⟩
  · exact ⟨10, h.symm⟩
  · exact ⟨11, h.symm⟩
  · exact ⟨12, h.symm⟩
  · exact ⟨13, h.symm⟩
  · exact ⟨14, h.symm⟩
  · exact ⟨15, h.symm⟩

/-- The list of values is in index order. -/
theorem Slots.toList_getElem {α : Type} (r : Slots α) (i : Nib) : r.toList[i.toNat]? = some (r.get i) := by
  revert i
  refine nib_cases fun n => ?_
  fin_cases n <;> rfl

/-- Two files that agree at every index are equal. -/
theorem Slots.ext_get {α : Type} {r q : Slots α} (h : ∀ i, r.get i = q.get i) : r = q := by
  cases r
  cases q
  simp only [Slots.mk.injEq]
  exact ⟨h 0, h 1, h 2, h 3, h 4, h 5, h 6, h 7, h 8, h 9, h 10, h 11, h 12, h 13, h 14, h 15⟩

end Sys2Proof.Machine
end

