-- ==== Sys2Proof/Laws/State.lean ====
section
/-! SUPPORT. One lemma per field of `State` per update, each true by `rfl`, and the reads that depend on one field only. -/

namespace Sys2Proof.Machine

/-! ### writeSlot -/

@[simp] theorem State.writeSlot_regs (s : State) (i v : Nib) : (s.writeSlot i v).regs = s.regs.set i v := rfl

@[simp] theorem State.writeSlot_pc (s : State) (i v : Nib) : (s.writeSlot i v).pc = s.pc := rfl

@[simp] theorem State.writeSlot_halted (s : State) (i v : Nib) : (s.writeSlot i v).halted = s.halted := rfl

@[simp] theorem State.writeSlot_mem (s : State) (i v : Nib) : (s.writeSlot i v).mem = s.mem := rfl

@[simp] theorem State.writeSlot_aluRom (s : State) (i v : Nib) : (s.writeSlot i v).aluRom = s.aluRom := rfl

@[simp] theorem State.writeSlot_config (s : State) (i v : Nib) : (s.writeSlot i v).config = s.config := rfl

@[simp] theorem State.writeSlot_events (s : State) (i v : Nib) : (s.writeSlot i v).events = s.events := rfl

@[simp] theorem State.writeSlot_memByte (s : State) (i v : Nib) (b : Addr) : (s.writeSlot i v).memByte b = s.memByte b := rfl

@[simp] theorem State.writeSlot_romByte (s : State) (i v : Nib) (k : RomKey) : (s.writeSlot i v).romByte k = s.romByte k := rfl

@[simp] theorem State.writeSlot_slotOf (s : State) (i v : Nib) (q : Role) : (s.writeSlot i v).slotOf q = s.slotOf q := rfl

@[simp] theorem State.writeSlot_writeGuard (s : State) (i v : Nib) (b : Addr) : (s.writeSlot i v).writeGuard b = s.writeGuard b := rfl

/-! ### writeRole -/

@[simp] theorem State.writeRole_regs (s : State) (r : Role) (v : Nib) : (s.writeRole r v).regs = s.regs.set (s.slotOf r) v := rfl

@[simp] theorem State.writeRole_pc (s : State) (r : Role) (v : Nib) : (s.writeRole r v).pc = s.pc := rfl

@[simp] theorem State.writeRole_halted (s : State) (r : Role) (v : Nib) : (s.writeRole r v).halted = s.halted := rfl

@[simp] theorem State.writeRole_mem (s : State) (r : Role) (v : Nib) : (s.writeRole r v).mem = s.mem := rfl

@[simp] theorem State.writeRole_aluRom (s : State) (r : Role) (v : Nib) : (s.writeRole r v).aluRom = s.aluRom := rfl

@[simp] theorem State.writeRole_config (s : State) (r : Role) (v : Nib) : (s.writeRole r v).config = s.config := rfl

@[simp] theorem State.writeRole_events (s : State) (r : Role) (v : Nib) : (s.writeRole r v).events = s.events := rfl

@[simp] theorem State.writeRole_memByte (s : State) (r : Role) (v : Nib) (b : Addr) : (s.writeRole r v).memByte b = s.memByte b := rfl

@[simp] theorem State.writeRole_romByte (s : State) (r : Role) (v : Nib) (k : RomKey) : (s.writeRole r v).romByte k = s.romByte k := rfl

@[simp] theorem State.writeRole_slotOf (s : State) (r : Role) (v : Nib) (q : Role) : (s.writeRole r v).slotOf q = s.slotOf q := rfl

@[simp] theorem State.writeRole_writeGuard (s : State) (r : Role) (v : Nib) (b : Addr) : (s.writeRole r v).writeGuard b = s.writeGuard b := rfl

/-! ### setPc -/

@[simp] theorem State.setPc_regs (s : State) (a : Addr) : (s.setPc a).regs = s.regs := rfl

@[simp] theorem State.setPc_pc (s : State) (a : Addr) : (s.setPc a).pc = a := rfl

@[simp] theorem State.setPc_halted (s : State) (a : Addr) : (s.setPc a).halted = s.halted := rfl

@[simp] theorem State.setPc_mem (s : State) (a : Addr) : (s.setPc a).mem = s.mem := rfl

@[simp] theorem State.setPc_aluRom (s : State) (a : Addr) : (s.setPc a).aluRom = s.aluRom := rfl

@[simp] theorem State.setPc_config (s : State) (a : Addr) : (s.setPc a).config = s.config := rfl

@[simp] theorem State.setPc_events (s : State) (a : Addr) : (s.setPc a).events = s.events := rfl

@[simp] theorem State.setPc_readSlot (s : State) (a : Addr) (j : Nib) : (s.setPc a).readSlot j = s.readSlot j := rfl

@[simp] theorem State.setPc_memByte (s : State) (a : Addr) (b : Addr) : (s.setPc a).memByte b = s.memByte b := rfl

@[simp] theorem State.setPc_romByte (s : State) (a : Addr) (k : RomKey) : (s.setPc a).romByte k = s.romByte k := rfl

@[simp] theorem State.setPc_slotOf (s : State) (a : Addr) (q : Role) : (s.setPc a).slotOf q = s.slotOf q := rfl

@[simp] theorem State.setPc_writeGuard (s : State) (a : Addr) (b : Addr) : (s.setPc a).writeGuard b = s.writeGuard b := rfl

@[simp] theorem State.setPc_ar (s : State) (a : Addr) : (s.setPc a).ar = s.ar := rfl

@[simp] theorem State.setPc_dataByte (s : State) (a : Addr) : (s.setPc a).dataByte = s.dataByte := rfl

@[simp] theorem State.setPc_aluKey (s : State) (a : Addr) : (s.setPc a).aluKey = s.aluKey := rfl

@[simp] theorem State.setPc_ctlIsZero (s : State) (a : Addr) : (s.setPc a).ctlIsZero = s.ctlIsZero := rfl

@[simp] theorem State.setPc_dumpRegs (s : State) (a : Addr) : (s.setPc a).dumpRegs = s.dumpRegs := rfl

@[simp] theorem State.setPc_aluValue (s : State) (a : Addr) : (s.setPc a).aluValue = s.aluValue := rfl

@[simp] theorem State.setPc_readRole (s : State) (a : Addr) (q : Role) : (s.setPc a).readRole q = s.readRole q := rfl

/-! ### storeByte -/

@[simp] theorem State.storeByte_regs (s : State) (a : Addr) (v : Byte) : (s.storeByte a v).regs = s.regs := rfl

@[simp] theorem State.storeByte_pc (s : State) (a : Addr) (v : Byte) : (s.storeByte a v).pc = s.pc := rfl

@[simp] theorem State.storeByte_halted (s : State) (a : Addr) (v : Byte) : (s.storeByte a v).halted = s.halted := rfl

@[simp] theorem State.storeByte_mem (s : State) (a : Addr) (v : Byte) : (s.storeByte a v).mem = s.mem.write a.toNat v := rfl

@[simp] theorem State.storeByte_aluRom (s : State) (a : Addr) (v : Byte) : (s.storeByte a v).aluRom = s.aluRom := rfl

@[simp] theorem State.storeByte_config (s : State) (a : Addr) (v : Byte) : (s.storeByte a v).config = s.config := rfl

@[simp] theorem State.storeByte_events (s : State) (a : Addr) (v : Byte) : (s.storeByte a v).events = s.events := rfl

@[simp] theorem State.storeByte_readSlot (s : State) (a : Addr) (v : Byte) (j : Nib) : (s.storeByte a v).readSlot j = s.readSlot j := rfl

@[simp] theorem State.storeByte_romByte (s : State) (a : Addr) (v : Byte) (k : RomKey) : (s.storeByte a v).romByte k = s.romByte k := rfl

@[simp] theorem State.storeByte_slotOf (s : State) (a : Addr) (v : Byte) (q : Role) : (s.storeByte a v).slotOf q = s.slotOf q := rfl

@[simp] theorem State.storeByte_writeGuard (s : State) (a : Addr) (v : Byte) (b : Addr) : (s.storeByte a v).writeGuard b = s.writeGuard b := rfl

@[simp] theorem State.storeByte_ar (s : State) (a : Addr) (v : Byte) : (s.storeByte a v).ar = s.ar := rfl

@[simp] theorem State.storeByte_dataByte (s : State) (a : Addr) (v : Byte) : (s.storeByte a v).dataByte = s.dataByte := rfl

@[simp] theorem State.storeByte_aluKey (s : State) (a : Addr) (v : Byte) : (s.storeByte a v).aluKey = s.aluKey := rfl

@[simp] theorem State.storeByte_ctlIsZero (s : State) (a : Addr) (v : Byte) : (s.storeByte a v).ctlIsZero = s.ctlIsZero := rfl

@[simp] theorem State.storeByte_dumpRegs (s : State) (a : Addr) (v : Byte) : (s.storeByte a v).dumpRegs = s.dumpRegs := rfl

@[simp] theorem State.storeByte_aluValue (s : State) (a : Addr) (v : Byte) : (s.storeByte a v).aluValue = s.aluValue := rfl

@[simp] theorem State.storeByte_readRole (s : State) (a : Addr) (v : Byte) (q : Role) : (s.storeByte a v).readRole q = s.readRole q := rfl

/-! ### emit -/

@[simp] theorem State.emit_regs (s : State) (e : Event) : (s.emit e).regs = s.regs := rfl

@[simp] theorem State.emit_pc (s : State) (e : Event) : (s.emit e).pc = s.pc := rfl

@[simp] theorem State.emit_halted (s : State) (e : Event) : (s.emit e).halted = s.halted := rfl

@[simp] theorem State.emit_mem (s : State) (e : Event) : (s.emit e).mem = s.mem := rfl

@[simp] theorem State.emit_aluRom (s : State) (e : Event) : (s.emit e).aluRom = s.aluRom := rfl

@[simp] theorem State.emit_config (s : State) (e : Event) : (s.emit e).config = s.config := rfl

@[simp] theorem State.emit_events (s : State) (e : Event) : (s.emit e).events = s.events ++ [e] := rfl

@[simp] theorem State.emit_readSlot (s : State) (e : Event) (j : Nib) : (s.emit e).readSlot j = s.readSlot j := rfl

@[simp] theorem State.emit_memByte (s : State) (e : Event) (b : Addr) : (s.emit e).memByte b = s.memByte b := rfl

@[simp] theorem State.emit_romByte (s : State) (e : Event) (k : RomKey) : (s.emit e).romByte k = s.romByte k := rfl

@[simp] theorem State.emit_slotOf (s : State) (e : Event) (q : Role) : (s.emit e).slotOf q = s.slotOf q := rfl

@[simp] theorem State.emit_writeGuard (s : State) (e : Event) (b : Addr) : (s.emit e).writeGuard b = s.writeGuard b := rfl

@[simp] theorem State.emit_ar (s : State) (e : Event) : (s.emit e).ar = s.ar := rfl

@[simp] theorem State.emit_dataByte (s : State) (e : Event) : (s.emit e).dataByte = s.dataByte := rfl

@[simp] theorem State.emit_aluKey (s : State) (e : Event) : (s.emit e).aluKey = s.aluKey := rfl

@[simp] theorem State.emit_ctlIsZero (s : State) (e : Event) : (s.emit e).ctlIsZero = s.ctlIsZero := rfl

@[simp] theorem State.emit_dumpRegs (s : State) (e : Event) : (s.emit e).dumpRegs = s.dumpRegs := rfl

@[simp] theorem State.emit_aluValue (s : State) (e : Event) : (s.emit e).aluValue = s.aluValue := rfl

@[simp] theorem State.emit_readRole (s : State) (e : Event) (q : Role) : (s.emit e).readRole q = s.readRole q := rfl

/-! ### setHalted -/

@[simp] theorem State.setHalted_regs (s : State) : s.setHalted.regs = s.regs := rfl

@[simp] theorem State.setHalted_pc (s : State) : s.setHalted.pc = s.pc := rfl

@[simp] theorem State.setHalted_halted (s : State) : s.setHalted.halted = true := rfl

@[simp] theorem State.setHalted_mem (s : State) : s.setHalted.mem = s.mem := rfl

@[simp] theorem State.setHalted_aluRom (s : State) : s.setHalted.aluRom = s.aluRom := rfl

@[simp] theorem State.setHalted_config (s : State) : s.setHalted.config = s.config := rfl

@[simp] theorem State.setHalted_events (s : State) : s.setHalted.events = s.events := rfl

@[simp] theorem State.setHalted_readSlot (s : State) (j : Nib) : s.setHalted.readSlot j = s.readSlot j := rfl

@[simp] theorem State.setHalted_memByte (s : State) (b : Addr) : s.setHalted.memByte b = s.memByte b := rfl

@[simp] theorem State.setHalted_romByte (s : State) (k : RomKey) : s.setHalted.romByte k = s.romByte k := rfl

@[simp] theorem State.setHalted_slotOf (s : State) (q : Role) : s.setHalted.slotOf q = s.slotOf q := rfl

@[simp] theorem State.setHalted_writeGuard (s : State) (b : Addr) : s.setHalted.writeGuard b = s.writeGuard b := rfl

@[simp] theorem State.setHalted_ar (s : State) : s.setHalted.ar = s.ar := rfl

@[simp] theorem State.setHalted_dataByte (s : State) : s.setHalted.dataByte = s.dataByte := rfl

@[simp] theorem State.setHalted_aluKey (s : State) : s.setHalted.aluKey = s.aluKey := rfl

@[simp] theorem State.setHalted_ctlIsZero (s : State) : s.setHalted.ctlIsZero = s.ctlIsZero := rfl

@[simp] theorem State.setHalted_dumpRegs (s : State) : s.setHalted.dumpRegs = s.dumpRegs := rfl

@[simp] theorem State.setHalted_aluValue (s : State) : s.setHalted.aluValue = s.aluValue := rfl

@[simp] theorem State.setHalted_readRole (s : State) (q : Role) : s.setHalted.readRole q = s.readRole q := rfl

/-! ### advancePc -/

@[simp] theorem State.advancePc_regs (s : State) : s.advancePc.regs = s.regs := rfl

@[simp] theorem State.advancePc_pc (s : State) : s.advancePc.pc = s.pc + 1 := rfl

@[simp] theorem State.advancePc_halted (s : State) : s.advancePc.halted = s.halted := rfl

@[simp] theorem State.advancePc_mem (s : State) : s.advancePc.mem = s.mem := rfl

@[simp] theorem State.advancePc_aluRom (s : State) : s.advancePc.aluRom = s.aluRom := rfl

@[simp] theorem State.advancePc_config (s : State) : s.advancePc.config = s.config := rfl

@[simp] theorem State.advancePc_events (s : State) : s.advancePc.events = s.events := rfl

@[simp] theorem State.advancePc_readSlot (s : State) (j : Nib) : s.advancePc.readSlot j = s.readSlot j := rfl

@[simp] theorem State.advancePc_memByte (s : State) (b : Addr) : s.advancePc.memByte b = s.memByte b := rfl

@[simp] theorem State.advancePc_romByte (s : State) (k : RomKey) : s.advancePc.romByte k = s.romByte k := rfl

@[simp] theorem State.advancePc_slotOf (s : State) (q : Role) : s.advancePc.slotOf q = s.slotOf q := rfl

@[simp] theorem State.advancePc_writeGuard (s : State) (b : Addr) : s.advancePc.writeGuard b = s.writeGuard b := rfl

@[simp] theorem State.advancePc_ar (s : State) : s.advancePc.ar = s.ar := rfl

@[simp] theorem State.advancePc_dataByte (s : State) : s.advancePc.dataByte = s.dataByte := rfl

@[simp] theorem State.advancePc_aluKey (s : State) : s.advancePc.aluKey = s.aluKey := rfl

@[simp] theorem State.advancePc_ctlIsZero (s : State) : s.advancePc.ctlIsZero = s.ctlIsZero := rfl

@[simp] theorem State.advancePc_dumpRegs (s : State) : s.advancePc.dumpRegs = s.dumpRegs := rfl

@[simp] theorem State.advancePc_aluValue (s : State) : s.advancePc.aluValue = s.aluValue := rfl

@[simp] theorem State.advancePc_readRole (s : State) (q : Role) : s.advancePc.readRole q = s.readRole q := rfl

/-! ### setAr -/

@[simp] theorem State.setAr_pc (s : State) (v : Addr) : (s.setAr v).pc = s.pc := rfl

@[simp] theorem State.setAr_halted (s : State) (v : Addr) : (s.setAr v).halted = s.halted := rfl

@[simp] theorem State.setAr_mem (s : State) (v : Addr) : (s.setAr v).mem = s.mem := rfl

@[simp] theorem State.setAr_aluRom (s : State) (v : Addr) : (s.setAr v).aluRom = s.aluRom := rfl

@[simp] theorem State.setAr_config (s : State) (v : Addr) : (s.setAr v).config = s.config := rfl

@[simp] theorem State.setAr_events (s : State) (v : Addr) : (s.setAr v).events = s.events := rfl

@[simp] theorem State.setAr_memByte (s : State) (v : Addr) (b : Addr) : (s.setAr v).memByte b = s.memByte b := rfl

@[simp] theorem State.setAr_romByte (s : State) (v : Addr) (k : RomKey) : (s.setAr v).romByte k = s.romByte k := rfl

@[simp] theorem State.setAr_slotOf (s : State) (v : Addr) (q : Role) : (s.setAr v).slotOf q = s.slotOf q := rfl

@[simp] theorem State.setAr_writeGuard (s : State) (v : Addr) (b : Addr) : (s.setAr v).writeGuard b = s.writeGuard b := rfl

/-! ### setDataByte -/

@[simp] theorem State.setDataByte_pc (s : State) (b : Byte) : (s.setDataByte b).pc = s.pc := rfl

@[simp] theorem State.setDataByte_halted (s : State) (b : Byte) : (s.setDataByte b).halted = s.halted := rfl

@[simp] theorem State.setDataByte_mem (s : State) (b : Byte) : (s.setDataByte b).mem = s.mem := rfl

@[simp] theorem State.setDataByte_aluRom (s : State) (b : Byte) : (s.setDataByte b).aluRom = s.aluRom := rfl

@[simp] theorem State.setDataByte_config (s : State) (b : Byte) : (s.setDataByte b).config = s.config := rfl

@[simp] theorem State.setDataByte_events (s : State) (b : Byte) : (s.setDataByte b).events = s.events := rfl

@[simp] theorem State.setDataByte_memByte (s : State) (b : Byte) (b' : Addr) : (s.setDataByte b).memByte b' = s.memByte b' := rfl

@[simp] theorem State.setDataByte_romByte (s : State) (b : Byte) (k' : RomKey) : (s.setDataByte b).romByte k' = s.romByte k' := rfl

@[simp] theorem State.setDataByte_slotOf (s : State) (b : Byte) (q' : Role) : (s.setDataByte b).slotOf q' = s.slotOf q' := rfl

@[simp] theorem State.setDataByte_writeGuard (s : State) (b : Byte) (b' : Addr) : (s.setDataByte b).writeGuard b' = s.writeGuard b' := rfl

/-! ### construct -/

@[simp] theorem State.construct_regs (c : Config) (m a : Option (List Byte)) : (State.construct c m a).regs = Slots.replicate 0 := rfl

@[simp] theorem State.construct_pc (c : Config) (m a : Option (List Byte)) : (State.construct c m a).pc = 0 := rfl

@[simp] theorem State.construct_halted (c : Config) (m a : Option (List Byte)) : (State.construct c m a).halted = false := rfl

@[simp] theorem State.construct_mem (c : Config) (m a : Option (List Byte)) : (State.construct c m a).mem = Memory.ofImage memSize m := rfl

@[simp] theorem State.construct_aluRom (c : Config) (m a : Option (List Byte)) : (State.construct c m a).aluRom = Memory.ofImage romSize a := rfl

@[simp] theorem State.construct_config (c : Config) (m a : Option (List Byte)) : (State.construct c m a).config = c := rfl

@[simp] theorem State.construct_events (c : Config) (m a : Option (List Byte)) : (State.construct c m a).events = [] := rfl

end Sys2Proof.Machine
end

