-- ==== Sys2Proof/Laws/Operands.lean ====
section
/-! SUPPORT. What each shared operation over slots, the address register, the data byte and the ALU key does, once for every
caller. -/

namespace Sys2Proof.Machine

/-! ### Slots -/

@[simp] theorem State.readSlot_writeSlot_self (s : State) (i v : Nib) : (s.writeSlot i v).readSlot i = v :=
  Slots.get_set_self s.regs i v

theorem State.readSlot_writeSlot_ne (s : State) {i j : Nib} (v : Nib) (h : j ≠ i) :
    (s.writeSlot i v).readSlot j = s.readSlot j :=
  Slots.get_set_ne s.regs v h

theorem State.readSlot_writeSlot (s : State) (i j v : Nib) :
    (s.writeSlot i v).readSlot j = if j = i then v else s.readSlot j := by
  split
  · next h => rw [h, State.readSlot_writeSlot_self]
  · next h => exact State.readSlot_writeSlot_ne s v h

/-- Writing back what a slot holds changes nothing (R101, the case `s == d`). -/
@[simp] theorem State.writeSlot_readSlot (s : State) (i : Nib) : s.writeSlot i (s.readSlot i) = s := by
  simp [State.writeSlot, State.readSlot, Slots.set_get]

/-- Writing a slot is writing it and nothing else. -/
theorem State.writeSlot_regsSameBut (s : State) (i v : Nib) : RegsSameBut [i] s (s.writeSlot i v) := fun j hj =>
  State.readSlot_writeSlot_ne s v (by simpa using hj)

theorem State.slotOf_ne {s : State} (h : s.config.wf = true) {r q : Role} (e : r ≠ q) : s.slotOf r ≠ s.slotOf q :=
  RegMap.index_ne (Config.admissible_of_wf h) e

@[simp] theorem State.slotOf_imm (s : State) : s.slotOf .imm = 5 := rfl

@[simp] theorem State.slotOf_alur (s : State) : s.slotOf .alur = 15 := rfl

theorem State.readRole_def (s : State) (r : Role) : s.readRole r = s.readSlot (s.slotOf r) := rfl

theorem State.writeRole_def (s : State) (r : Role) (v : Nib) : s.writeRole r v = s.writeSlot (s.slotOf r) v := rfl

@[simp] theorem State.readRole_writeRole_self (s : State) (r : Role) (v : Nib) : (s.writeRole r v).readRole r = v :=
  State.readSlot_writeSlot_self s (s.slotOf r) v

theorem State.readRole_writeRole_ne {s : State} (hw : s.config.wf = true) {r q : Role} (v : Nib) (h : q ≠ r) :
    (s.writeRole r v).readRole q = s.readRole q :=
  State.readSlot_writeSlot_ne s v (State.slotOf_ne hw h)

/-! ### Packing nibbles -/

/-- Putting a number above the low `k` bits is adding it, shifted. -/
theorem or_shiftLeft_eq_add {x k : Nat} (y : Nat) (h : x < 2 ^ k) : x ||| y <<< k = x + y * 2 ^ k := by
  rw [Nat.or_comm, ← Nat.shiftLeft_add_eq_or_of_lt h, Nat.shiftLeft_eq, Nat.add_comm]

/-- Two nibbles in a byte, as a number. -/
theorem pack_two_nibbles (a b : Nib) : (a.setWidth 8 ||| b.setWidth 8 <<< 4).toNat = a.toNat + 16 * b.toNat := by
  have ha := a.isLt
  have hb := b.isLt
  simp only [Nat.reducePow] at ha hb
  simp only [BitVec.toNat_or, BitVec.toNat_shiftLeft, BitVec.toNat_setWidth, Nat.reducePow]
  have e1 : a.toNat % 256 = a.toNat := by omega
  have e2 : (b.toNat % 256) <<< 4 % 256 = b.toNat <<< 4 := by simp only [Nat.shiftLeft_eq]; omega
  rw [e1, e2, or_shiftLeft_eq_add _ (by omega)]
  omega

/-- Three nibbles in a ROM key, as a number. -/
theorem pack_three_nibbles (a b c : Nib) : (a.setWidth 12 ||| b.setWidth 12 <<< 4 ||| c.setWidth 12 <<< 8).toNat
    = a.toNat + 16 * b.toNat + 256 * c.toNat := by
  have ha := a.isLt
  have hb := b.isLt
  have hc := c.isLt
  simp only [Nat.reducePow] at ha hb hc
  simp only [BitVec.toNat_or, BitVec.toNat_shiftLeft, BitVec.toNat_setWidth, Nat.reducePow]
  have e1 : a.toNat % 4096 = a.toNat := by omega
  have e2 : (b.toNat % 4096) <<< 4 % 4096 = b.toNat <<< 4 := by simp only [Nat.shiftLeft_eq]; omega
  have e3 : (c.toNat % 4096) <<< 8 % 4096 = c.toNat <<< 8 := by simp only [Nat.shiftLeft_eq]; omega
  rw [e1, e2, e3, or_shiftLeft_eq_add b.toNat (by omega), or_shiftLeft_eq_add c.toNat (by omega)]
  omega

/-- Four nibbles in an address, as a number. -/
theorem pack_four_nibbles (a b c d : Nib) :
    (a.setWidth 16 ||| b.setWidth 16 <<< 4 ||| c.setWidth 16 <<< 8 ||| d.setWidth 16 <<< 12).toNat
      = a.toNat + 16 * b.toNat + 256 * c.toNat + 4096 * d.toNat := by
  have ha := a.isLt
  have hb := b.isLt
  have hc := c.isLt
  have hd := d.isLt
  simp only [Nat.reducePow] at ha hb hc hd
  simp only [BitVec.toNat_or, BitVec.toNat_shiftLeft, BitVec.toNat_setWidth, Nat.reducePow]
  have e1 : a.toNat % 65536 = a.toNat := by omega
  have e2 : (b.toNat % 65536) <<< 4 % 65536 = b.toNat <<< 4 := by simp only [Nat.shiftLeft_eq]; omega
  have e3 : (c.toNat % 65536) <<< 8 % 65536 = c.toNat <<< 8 := by simp only [Nat.shiftLeft_eq]; omega
  have e4 : (d.toNat % 65536) <<< 12 % 65536 = d.toNat <<< 12 := by simp only [Nat.shiftLeft_eq]; omega
  rw [e1, e2, e3, e4, or_shiftLeft_eq_add b.toNat (by omega), or_shiftLeft_eq_add c.toNat (by omega),
    or_shiftLeft_eq_add d.toNat (by omega)]
  omega

/-- A nibble cut out of a value, as a number. -/
theorem extract_nibble_toNat {w : Nat} (v : BitVec w) (k : Nat) : (v.extractLsb' k 4).toNat = v.toNat / 2 ^ k % 16 := by
  rw [BitVec.extractLsb'_toNat, Nat.shiftRight_eq_div_pow]

/-! ### The address register (R27, R28) -/

/-- `AR` as a number (R27). -/
theorem State.ar_toNat (s : State) : s.ar.toNat = (s.readRole .ad0).toNat + 16 * (s.readRole .ad1).toNat +
    256 * (s.readRole .ad2).toNat + 4096 * (s.readRole .ad3).toNat :=
  pack_four_nibbles _ _ _ _

/-- Writing `AR` touches no slot but the four address nibbles (R28). -/
theorem State.setAr_regsSameBut (s : State) (v : Addr) : RegsSameBut s.addressSlots s (s.setAr v) := by
  intro j hj
  simp only [State.addressSlots, List.mem_cons, List.not_mem_nil, or_false, not_or] at hj
  simp [State.setAr, State.writeRole_def, State.readSlot_writeSlot_ne, hj]

/-- The four nibbles after `AR <- v` (R28). -/
theorem State.setAr_readRole {s : State} (hw : s.config.wf = true) (v : Addr) :
    (s.setAr v).readRole .ad0 = v.extractLsb' 0 4 ∧ (s.setAr v).readRole .ad1 = v.extractLsb' 4 4 ∧
      (s.setAr v).readRole .ad2 = v.extractLsb' 8 4 ∧ (s.setAr v).readRole .ad3 = v.extractLsb' 12 4 := by
  have h {r q : Role} (e : r ≠ q) := State.slotOf_ne hw e
  simp [State.setAr, State.readRole_def, State.writeRole_def, State.readSlot_writeSlot, h]

/-- The round trip of R28: after `AR <- v`, `AR` is `v`. -/
theorem State.ar_setAr {s : State} (hw : s.config.wf = true) (v : Addr) : (s.setAr v).ar = v := by
  obtain ⟨h0, h1, h2, h3⟩ := State.setAr_readRole hw v
  apply BitVec.eq_of_toNat_eq
  have hv := v.isLt
  simp only [State.ar_toNat, h0, h1, h2, h3, extract_nibble_toNat, Nat.reducePow] at *
  omega

/-! ### The data byte (R25, R121, R122) -/

/-- The data byte as a number. -/
theorem State.dataByte_toNat (s : State) : s.dataByte.toNat = (s.readRole .mlo).toNat + 16 * (s.readRole .mhi).toNat :=
  pack_two_nibbles _ _

/-- Splitting a byte touches no slot but `MLO` and `MHI`. -/
theorem State.setDataByte_regsSameBut (s : State) (b : Byte) :
    RegsSameBut [s.slotOf .mlo, s.slotOf .mhi] s (s.setDataByte b) := by
  intro j hj
  simp only [List.mem_cons, List.not_mem_nil, or_false, not_or] at hj
  simp [State.setDataByte, State.writeRole_def, State.readSlot_writeSlot_ne, hj]

/-- The two nibbles after a byte is split (R121). -/
theorem State.setDataByte_readRole {s : State} (hw : s.config.wf = true) (b : Byte) :
    (s.setDataByte b).readRole .mlo = b.extractLsb' 0 4 ∧ (s.setDataByte b).readRole .mhi = b.extractLsb' 4 4 := by
  have h {r q : Role} (e : r ≠ q) := State.slotOf_ne hw e
  simp [State.setDataByte, State.readRole_def, State.writeRole_def, State.readSlot_writeSlot, h]

/-- Splitting a byte and packing it again gives the byte. -/
theorem State.dataByte_setDataByte {s : State} (hw : s.config.wf = true) (b : Byte) : (s.setDataByte b).dataByte = b := by
  obtain ⟨h0, h1⟩ := State.setDataByte_readRole hw b
  apply BitVec.eq_of_toNat_eq
  have hb := b.isLt
  simp only [State.dataByte_toNat, h0, h1, extract_nibble_toNat, Nat.reducePow] at *
  omega

/-- Splitting a byte leaves `AR` alone, since `MLO` and `MHI` are no address nibbles. -/
theorem State.setDataByte_ar {s : State} (hw : s.config.wf = true) (b : Byte) : (s.setDataByte b).ar = s.ar := by
  have h {r q : Role} (e : r ≠ q) := State.slotOf_ne hw e
  simp [State.ar, State.setDataByte, State.readRole_def, State.writeRole_def, State.readSlot_writeSlot, h]

/-! ### The ALU value (R81, R94) -/

/-- The ALU key as a number (R81). -/
theorem State.aluKey_toNat (s : State) : s.aluKey.toNat = (s.readRole .alua).toNat + 16 * (s.readRole .alub).toNat +
    256 * (s.readRole .aluop).toNat :=
  pack_three_nibbles _ _ _

/-- The ALU value as a number: the low nibble of the ROM byte at the key (R94). -/
theorem State.aluValue_toNat (s : State) : s.aluValue.toNat = (s.romByte s.aluKey).toNat % 16 := by
  rw [State.aluValue, extract_nibble_toNat, Nat.pow_zero, Nat.div_one]

/-! ### Memory (R9) -/

/-- The byte at an address after a store, in a state whose memory is canonical. -/
theorem State.memByte_storeByte {s : State} (hm : s.mem.wf memSize = true) (a b : Addr) (v : Byte) :
    (s.storeByte a v).memByte b = if b = a then v else s.memByte b := by
  split
  · next h => subst h; exact Memory.read_write_self hm _ _
  · next h => exact Memory.read_write_ne _ _ fun e => h (BitVec.eq_of_toNat_eq e)

/-- A store leaves every other address alone, whatever form the memory has. -/
theorem State.memByte_storeByte_ne (s : State) {a b : Addr} (v : Byte) (h : b ≠ a) :
    (s.storeByte a v).memByte b = s.memByte b :=
  Memory.read_write_ne _ _ fun e => h (BitVec.eq_of_toNat_eq e)

/-- A store keeps the memory canonical. -/
theorem State.storeByte_memWf {s : State} (hm : s.mem.wf memSize = true) (a : Addr) (v : Byte) :
    (s.storeByte a v).mem.wf memSize = true :=
  Memory.write_wf hm v a.isLt

/-- The dump of a slot, as a number (R36). -/
theorem State.dumpRegs_get (s : State) (i : Nib) : (s.dumpRegs.get i).toNat = (s.readSlot i).toNat := by
  have := (s.readSlot i).isLt
  simp only [State.dumpRegs, Slots.get_map, BitVec.toNat_setWidth, State.readSlot] at *
  omega

/-- The dump is well-formed where slot 15 holds 0 (R23, R36). -/
theorem State.dumpRegs_wf {s : State} (h : s.readSlot 15 = 0) :
    (decide (s.dumpRegs.get 15 = 0) && s.dumpRegs.toList.all fun b => decide (b.toNat < 16)) = true := by
  simp only [Bool.and_eq_true, decide_eq_true_eq, List.all_eq_true]
  refine ⟨?_, fun b hb => ?_⟩
  · apply BitVec.eq_of_toNat_eq
    rw [State.dumpRegs_get, h]
    rfl
  · obtain ⟨i, rfl⟩ := Slots.exists_get_of_mem_toList hb
    rw [State.dumpRegs_get]
    exact (s.readSlot i).isLt

end Sys2Proof.Machine
end

