-- ==== Sys2Proof/Laws/PerInstr.lean ====
section
/-! SUPPORT. A family of statements about every instruction as syntax: its byte is one that its row of the opcode table
selects (mask, pattern and constraints). -/

namespace Sys2Proof.Laws.RowSelects

/-- The byte of a well-formed instruction belongs to the instruction's row of spec/opcode_table.json. -/
def Statement (i : Instr) : Prop := i.wellFormed = true → i.row.selects (encode i) = true

theorem ldi (n : Nib) : Statement (.ldi n) := by revert n; unfold Statement; decide
theorem memrd : Statement .memrd := by unfold Statement; decide
theorem memwr : Statement .memwr := by unfold Statement; decide
theorem inca : Statement .inca := by unfold Statement; decide
theorem deca : Statement .deca := by unfold Statement; decide
theorem jmp : Statement .jmp := by unfold Statement; decide
theorem jz : Statement .jz := by unfold Statement; decide
theorem jal : Statement .jal := by unfold Statement; decide
theorem cmd7 : Statement .cmd7 := by unfold Statement; decide
theorem cmd8 : Statement .cmd8 := by unfold Statement; decide
theorem cmd9 : Statement .cmd9 := by unfold Statement; decide
theorem cmd10 : Statement .cmd10 := by unfold Statement; decide
theorem cmd11 : Statement .cmd11 := by unfold Statement; decide
theorem cmd12 : Statement .cmd12 := by unfold Statement; decide
theorem cmd13 : Statement .cmd13 := by unfold Statement; decide
theorem brk : Statement .brk := by unfold Statement; decide
theorem halt : Statement .halt := by unfold Statement; decide
theorem movalu (d : Nib) : Statement (.movalu d) := by revert d; unfold Statement; decide
theorem mov (d s : Nib) : Statement (.mov d s) := by revert d s; unfold Statement; decide

end Sys2Proof.Laws.RowSelects
end

