-- ==== Sys2Proof/Laws/Step.lean ====
section
/-! SUPPORT. What a step can be (30_encoding.md R60), and which operations keep the invariant. -/

namespace Sys2Proof.Machine

/-- A machine that is not halted steps by executing the fetched instruction. -/
theorem step_of_not_halted {s : State} (h : s.halted = false) : step s = exec (decodeByte s.fetchByte) s.advancePc := by
  simp [step, h]

/-- A halted machine has no step (R31). -/
theorem step_of_halted {s : State} (h : s.halted = true) : step s = .fault .alreadyHalted := by simp [step, h]

/-- Everything a step that answers a next state can be. -/
theorem step_eq_next_iff {s t : State} :
    step s = .next t ↔ s.halted = false ∧ exec (decodeByte s.fetchByte) s.advancePc = .next t := by
  cases h : s.halted <;> simp [step, h]

/-- One more step of a run, at its start. -/
theorem run_succ_of_step {s t : State} (h : step s = .next t) (n : Nat) :
    Host.Core.run Sys2Proof.core (n + 1) s = Host.Core.run Sys2Proof.core n t := by
  have h' : Sys2Proof.core.step s = .next t := h
  exact (Host.Core.run.eq_2 Sys2Proof.core s n).trans (by rw [h'])

/-- A run of one step or more that answers a next state begins with a step. -/
theorem exists_step_of_run_succ {n : Nat} {s t : State} (h : Host.Core.run Sys2Proof.core (n + 1) s = .next t) :
    ∃ u, step s = .next u ∧ Host.Core.run Sys2Proof.core n u = .next t := by
  replace h := (Host.Core.run.eq_2 Sys2Proof.core s n).symm.trans h
  split at h
  · next u hu => exact ⟨u, hu, h⟩
  · cases h
  · cases h

/-- An invariant that every step keeps holds after every run: the induction, once. -/
theorem run_keeps {P : State → Prop} (hstep : ∀ s t, P s → step s = .next t → P t) {n : Nat} {s t : State} (hs : P s)
    (h : Host.Core.run Sys2Proof.core n s = .next t) : P t := by
  induction n generalizing s with
  | zero => cases h; exact hs
  | succ n ih =>
    obtain ⟨u, hu, hr⟩ := exists_step_of_run_succ h
    exact ih (hstep s u hs hu) hr

/-! ### Operations that keep the invariant -/

/-- Writing any slot but 15 keeps the invariant. -/
theorem State.Inv.writeSlot {s : State} (h : s.Inv) {i : Nib} (v : Nib) (hi : i ≠ 15) : (s.writeSlot i v).Inv where
  configWf := h.configWf
  memWf := h.memWf
  romWf := h.romWf
  slotFifteen := by rw [State.readSlot_writeSlot_ne s v hi.symm]; exact h.slotFifteen
  eventsWf := h.eventsWf
  haltEvents := h.haltEvents

/-- Writing any role but `ALUR` keeps the invariant. -/
theorem State.Inv.writeRole {s : State} (h : s.Inv) {r : Role} (v : Nib) (hr : r ≠ .alur) : (s.writeRole r v).Inv :=
  h.writeSlot v (State.slotOf_ne h.configWf hr)

/-- Writing `AR` keeps the invariant. -/
theorem State.Inv.setAr {s : State} (h : s.Inv) (v : Addr) : (s.setAr v).Inv :=
  (((h.writeRole _ (by decide)).writeRole _ (by decide)).writeRole _ (by decide)).writeRole _ (by decide)

/-- Splitting a byte into `MLO` and `MHI` keeps the invariant. -/
theorem State.Inv.setDataByte {s : State} (h : s.Inv) (b : Byte) : (s.setDataByte b).Inv :=
  (h.writeRole _ (by decide)).writeRole _ (by decide)

/-- Writing `pc` keeps the invariant. -/
theorem State.Inv.setPc {s : State} (h : s.Inv) (a : Addr) : (s.setPc a).Inv where
  configWf := h.configWf
  memWf := h.memWf
  romWf := h.romWf
  slotFifteen := h.slotFifteen
  eventsWf := h.eventsWf
  haltEvents := h.haltEvents

/-- Storing a byte keeps the invariant. -/
theorem State.Inv.storeByte {s : State} (h : s.Inv) (a : Addr) (v : Byte) : (s.storeByte a v).Inv where
  configWf := h.configWf
  memWf := State.storeByte_memWf h.memWf a v
  romWf := h.romWf
  slotFifteen := h.slotFifteen
  eventsWf := h.eventsWf
  haltEvents := h.haltEvents

end Sys2Proof.Machine
end

