-- ==== Sys2Proof/Tests/Slice0.lean ====
section
/-! SUPPORT. Tests. The expected results are those of spec/95_test_vectors.md (section and row named in the comment) or are
written out from the encodings of 30_encoding.md; the register map is `SAMPLE_MAP`, as there. -/

namespace Sys2Proof.Tests

open Sys2Proof.Machine

/-- An instance under `SAMPLE_MAP` whose memory starts with `code`, with `pc` at `pc` and the listed slots set. -/
def small (code : List Byte) (pc : Addr) (slots : List (Nib × Nib)) : State :=
  (slots.foldl (fun s p => s.writeSlot p.1 p.2) (State.construct resetConfig (some code) none)).setPc pc

/-- A property of the next state, false where there is none. -/
def next (o : Host.Outcome State Fault Refusal) (f : State → Bool) : Bool :=
  match o with
  | .next t => f t
  | .fault _ => false
  | .refused _ => false

/-- The same instance with a byte stored. -/
def withByte (s : State) (a : Addr) (b : Byte) : State := s.storeByte a b

/-- The four address nibbles of a 16-bit value, under `SAMPLE_MAP`. -/
def arSlots (a3 a2 a1 a0 : Nib) : List (Nib × Nib) := [(8, a0), (9, a1), (10, a2), (11, a3)]

/-! ### WellFormed: one ill-formed term for each check -/

theorem test_wf_mov_into_imm_refused : (Instr.mov 5 0).wellFormed = false := by decide
theorem test_wf_mov_into_alur_refused : (Instr.mov 15 0).wellFormed = false := by decide
theorem test_wf_mov_from_alur_refused : (Instr.mov 0 15).wellFormed = false := by decide
theorem test_wf_movalu_into_imm_refused : (Instr.movalu 5).wellFormed = false := by decide
theorem test_wf_movalu_into_alur_refused : (Instr.movalu 15).wellFormed = false := by decide
theorem test_wf_mov_from_imm_accepted : (Instr.mov 0 5).wellFormed = true := by decide

/-! ### Decode: one word for every constructor, from the encodings of R64, R65 and opcode_table.json -/

theorem test_decode_ldi : decodeByte 0b10100101 = .ldi 10 := by decide
theorem test_decode_memrd : decodeByte 0b00001111 = .memrd := by decide
theorem test_decode_memwr : decodeByte 0b00011111 = .memwr := by decide
theorem test_decode_inca : decodeByte 0b00101111 = .inca := by decide
theorem test_decode_deca : decodeByte 0b00111111 = .deca := by decide
theorem test_decode_jmp : decodeByte 0b01001111 = .jmp := by decide
theorem test_decode_jz : decodeByte 0b01011111 = .jz := by decide
theorem test_decode_jal : decodeByte 0b01101111 = .jal := by decide
theorem test_decode_cmd7 : decodeByte 0b01111111 = .cmd7 := by decide
theorem test_decode_cmd8 : decodeByte 0b10001111 = .cmd8 := by decide
theorem test_decode_cmd9 : decodeByte 0b10011111 = .cmd9 := by decide
theorem test_decode_cmd10 : decodeByte 0b10101111 = .cmd10 := by decide
theorem test_decode_cmd11 : decodeByte 0b10111111 = .cmd11 := by decide
theorem test_decode_cmd12 : decodeByte 0b11001111 = .cmd12 := by decide
theorem test_decode_cmd13 : decodeByte 0b11011111 = .cmd13 := by decide
theorem test_decode_brk : decodeByte 0b11101111 = .brk := by decide
theorem test_decode_halt : decodeByte 0b11111111 = .halt := by decide
theorem test_decode_movalu : decodeByte 0b11110011 = .movalu 3 := by decide
theorem test_decode_mov : decodeByte 0b01011010 = .mov 10 5 := by decide
/-- 0x55 is LDI 5, 0xF5 is LDI 15 (95, 2.1). -/
theorem test_decode_dst_five_first : decodeByte 0x55 = .ldi 5 ∧ decodeByte 0xF5 = .ldi 15 := by decide
/-- An empty list of bytes is the only thing the decoder rejects. -/
theorem test_decode_no_bytes : decode [] = .error .noBytes := rfl
theorem test_decode_rest : decode [0x2F, 0x3F] = .ok (.inca, [0x3F]) := rfl
theorem test_decodeTableWord : decodeTableWord 8 0x5A = some (.mov 10 5) ∧ decodeTableWord 0 0 = none := by decide
theorem test_decodeTableWord_one_byte_only : decodeTableWord 16 0x5A = none := by decide

/-- The rows of the opcode table do not overlap and none is missing: each of the 256 bytes belongs to exactly one row, that of
the instruction it decodes to (R66, R69). -/
theorem test_every_byte_in_one_row :
    ∀ src dst : Nib, opcodeTable.filter (fun r => r.selects (fieldsByte src dst)) =
      [(decodeByte (fieldsByte src dst)).row] := by decide

/-! ### The ALU table (95, 2.4) -/

theorem test_binop_sums : binop 0 3 4 = 7 ∧ binop 0 15 1 = 0 ∧ binop 1 15 1 = 1 ∧ binop 1 7 8 = 0 := by decide
theorem test_binop_products : binop 2 15 15 = 1 ∧ binop 3 15 15 = 14 ∧ binop 2 3 5 = 15 ∧ binop 3 4 4 = 1 := by decide
theorem test_binop_logic : binop 4 12 10 = 8 ∧ binop 5 12 10 = 14 ∧ binop 6 12 10 = 6 := by decide
theorem test_binop_reserved : binop 7 5 5 = 0 ∧ binop 14 15 15 = 0 ∧ binop 15 6 2 = 0 ∧ binop 15 0 15 = 0 := by decide
theorem test_unop : binop 15 0 0 = 1 ∧ binop 15 7 0 = 0 ∧ binop 15 0 1 = 15 ∧ binop 15 10 1 = 5 := by decide
/-- `STD_ALU_ROM[0x043] = 7` (R102, example). -/
theorem test_std_rom_key_043 : stdAluRom.read 0x043 = 7 := by
  rw [stdAluRom_read 0x043 (by decide)]; decide

/-! ### Moves (95, 2.2 to 2.4) -/

theorem test_ldi_not_an_alu_read : next (step (small [0xF5] 0 [(5, 3)])) (fun t => t.readSlot 5 == 15 && t.pc == 1) = true := by
  decide
theorem test_mov_from_imm : next (step (small [0x53] 0 [(5, 9)])) (fun t => t.readRole .gp0 == 9 && t.readSlot 5 == 9) = true := by
  decide
theorem test_mov_changes_address : next (step (small [0x5B] 0 [(5, 12), (8, 15), (9, 15), (10, 15)]))
    (fun t => t.ar == 0xCFFF) = true := by decide
/-- A ROM byte 0x9A at key 0x043 gives 0xA (95, 2.4, custom image). -/
theorem test_movalu_masks : next (exec (.movalu 3) { small [] 0 [(12, 3), (13, 4)] with aluRom := [(0x043, 0x9A)] })
    (fun t => t.readSlot 3 == 0xA) = true := by decide
/-- `MOV ALUA, ALU` uses the old operand (95, 2.4). -/
theorem test_movalu_old_operand : next (exec (.movalu 12) { small [] 0 [(12, 5), (13, 1)] with aluRom := [(0x015, 6)] })
    (fun t => t.readSlot 12 == 6) = true := by decide

/-! ### Memory and address commands (95, 2.5, 2.6) -/

theorem test_memrd : next (step (withByte (small [0x0F] 0 (arSlots 0 1 0 0)) 0x0100 0xA7))
    (fun t => t.readRole .mlo == 7 && t.readRole .mhi == 0xA && t.ar == 0x0100) = true := by decide
theorem test_memrd_top : next (step (withByte (small [0x0F] 0 (arSlots 15 15 15 15)) 0xFFFF 0x3C))
    (fun t => t.readRole .mlo == 0xC && t.readRole .mhi == 3) = true := by decide
theorem test_memwr : next (step (small [0x1F] 0 ([(1, 7), (2, 0xA)] ++ arSlots 0 1 0 1)))
    (fun t => t.memByte 0x0101 == 0xA7 && t.memByte 0x0100 == 0 && t.memByte 0 == 0x1F) = true := by decide
theorem test_memwr_refused : next (exec .memwr { small [] 0 ([(1, 7), (2, 0xA)] ++ arSlots 0 1 0 1) with
    config := { resetConfig with guardRefuses := [0x0101] } }) (fun t => t.memByte 0x0101 == 0 && t.events == []) = true := by
  decide
theorem test_inca_carry : next (exec .inca (small [] 0 (arSlots 0 15 15 15))) (fun t => t.ar == 0x1000) = true := by decide
theorem test_inca_wrap : next (exec .inca (small [] 0 (arSlots 15 15 15 15))) (fun t => t.ar == 0) = true := by decide
theorem test_deca_borrow : next (exec .deca (small [] 0 (arSlots 0 1 0 0))) (fun t => t.ar == 0x00FF) = true := by decide
theorem test_deca_underflow : next (exec .deca (small [] 0 [])) (fun t => t.ar == 0xFFFF && t.readRole .ad3 == 15) = true := by
  decide

/-! ### Control transfer (95, 2.7) -/

theorem test_jmp : next (step (withByte (small [] 0x000D (arSlots 0 0 0 6)) 0x000D 0x4F))
    (fun t => t.pc == 6 && t.ar == 6) = true := by decide
theorem test_jz_taken : next (step (withByte (small [] 0x000A (arSlots 0 0 0 14)) 0x000A 0x5F)) (fun t => t.pc == 0x000E) = true := by
  decide
theorem test_jz_falls_through : next (step (withByte (small [] 0x000A ([(0, 2)] ++ arSlots 0 0 0 14)) 0x000A 0x5F))
    (fun t => t.pc == 0x000B) = true := by decide
theorem test_jal_links : next (step (withByte (small [] 0xFFFF (arSlots 1 2 3 4)) 0xFFFF 0x6F))
    (fun t => t.pc == 0x1234 && t.ar == 0) = true := by decide
theorem test_jal_discard : next (step { withByte (small [] 2 (arSlots 0 0 1 0)) 2 0x6F with
    config := { resetConfig with jalLinkMode := .discard } }) (fun t => t.pc == 0x0010 && t.ar == 0x0010) = true := by decide

/-! ### Reserved, break, halt (95, 2.8) -/

theorem test_cmd9_at_7fff : next (step (withByte (small [] 0x7FFF []) 0x7FFF 0x9F)) (fun t => t.pc == 0x8000 && t.events == []) = true := by
  decide
/-- Break at pc 7: regs[12] = 3, regs[13] = 4, regs[15] = 0. -/
theorem test_brk_dump : next (step (withByte (small [] 7 [(12, 3), (13, 4)]) 7 0xEF))
    (fun t => t.events == [.brk 8 ⟨0, 0, 0, 0, 0, 0, 0, 0, 0, 0, 0, 0, 3, 4, 0, 0⟩] && !t.halted) = true := by decide
theorem test_halt_at_top : next (step (withByte (small [] 0xFFFF []) 0xFFFF 0xFF))
    (fun t => t.halted && t.pc == 0 && t.events == [.halt 0 (Slots.replicate 0) [(0xFFFF, 0xFF)]]) = true := by decide
theorem test_no_step_after_halt : step { small [0x00] 0 [] with halted := true } = .fault .alreadyHalted := rfl

/-! ### Fetch, reset, the placed word -/

theorem test_fetch_wraps : next (step (small [] 0xFFFF [])) (fun t => t.pc == 0) = true := by decide
theorem test_placed_word_runs : next (step (State.reset.withFetchWord 8 0xA5)) (fun t => t.readSlot 5 == 10 && t.pc == 1) = true := by
  decide
theorem test_placed_word_after_halt : next (step (State.withFetchWord { State.reset with halted := true } 8 0xFF))
    (fun t => t.halted) = true := by decide

/-- States are compared by evaluation. -/
theorem test_states_compare : decide (small [] 0 [] = small [] 1 []) = false ∧ decide (small [] 0 [(5, 0)] = small [] 0 []) = true := by
  decide

/-! ### Witnesses: concrete states and operands that meet the hypotheses of each statement -/

/-- A state of an instance under `SAMPLE_MAP` that meets the invariant and is not halted. -/
theorem small_inv (code : List Byte) : (small code 0xFFFF []).Inv :=
  ⟨resetConfig_wf, Memory.ofImage_wf _ _, Memory.ofImage_wf _ _, rfl, rfl, rfl⟩

theorem witness_DecodeEncodeAgree : (Instr.mov 14 14).wellFormed = true ∧ (Instr.mov 4 5).wellFormed = true ∧
    (Instr.movalu 0).wellFormed = true ∧ (Instr.ldi 15).wellFormed = true := by decide
/-- One witness for each case of R63, and a halted state. -/
theorem witness_StepIsFetchDecodeExecute : (small [0x55] 0 []).halted = false ∧
    ((small [0x55] 0 []).memByte 0).toNat = 16 * (5 : Nib).toNat + (5 : Nib).toNat ∧
    ((small [0xFF] 0 []).memByte 0).toNat = 16 * (15 : Nib).toNat + (15 : Nib).toNat ∧
    ((small [0xF4] 0 []).memByte 0).toNat = 16 * (15 : Nib).toNat + (4 : Nib).toNat ∧
    ((small [0xEE] 0 []).memByte 0).toNat = 16 * (14 : Nib).toNat + (14 : Nib).toNat ∧
    (State.setHalted State.reset).halted = true := by decide
theorem witness_CommandTable : (small [0x0F] 0 []).halted = false ∧
    ((small [0x0F] 0 []).memByte 0).toNat = 16 * (0 : Nib).toNat + 15 ∧
    ((small [0xFF] 0 []).memByte 0).toNat = 16 * (15 : Nib).toNat + 15 := by decide
theorem witness_FetchIncrementsBeforeExecute : (small [] 0xFFFF []).halted = false ∧ (small [] 0 []).halted = false := by decide
theorem witness_EveryInstructionCompletes : State.reset.halted = false := by decide
/-- A step with no event, one with a Break, one with a Halt. -/
theorem witness_StepEmitsAtMostOneEvent : (stepRelation (small [0x05] 0 [])).isSome = true ∧
    (stepRelation (small [0xEF] 0 [])).isSome = true ∧ (stepRelation (small [0xFF] 0 [])).isSome = true := by decide
theorem witness_ConstructionSetsEveryElement : 65536 ≤ 65536 ∧ 4096 ≤ 4096 := by decide
theorem witness_ConstructionMeetsInvariant : resetConfig.wf = true ∧
    Config.wf { resetConfig with guardRefuses := [0, 0xFFFF], jalLinkMode := .discard } = true := by decide
theorem witness_EveryStepKeepsInvariant : (small [0xFF] 0xFFFF []).Inv ∧ ∃ t, step (small [0xFF] 0xFFFF []) = .next t :=
  ⟨small_inv _, _, rfl⟩
theorem witness_AddressRegisterRoundTrip : (small [] 0 (arSlots 15 15 15 15)).config.wf = true := by decide
/-- `MOV ALUA, MLO`: it writes ALUA, and reads neither IMM nor MHI. -/
theorem witness_RegisterAccessTable : (Instr.mov 12 1).wellFormed = true ∧ (small [] 0 [(1, 7)]).config.wf = true ∧
    (∃ t, exec (.mov 12 1) (small [] 0 [(1, 7)]) = .next t ∧ t.readRole .alua ≠ (small [] 0 [(1, 7)]).readRole .alua) ∧
    ¬ ReadBy (small [] 0 [(1, 7)]).config (.mov 12 1) .imm ∧ ¬ ReadBy (small [] 0 [(1, 7)]).config (.mov 12 1) .mhi := by
  refine ⟨by decide, by decide, ⟨_, rfl, by decide⟩, ?_, ?_⟩
  · rintro (⟨d, h⟩ | h | h)
    · injection h with _ h; revert h; decide
    · cases h
    · cases h
  · rintro (⟨d, h⟩ | h | h | h)
    · injection h with _ h; revert h; decide
    · cases h
    · cases h
    · cases h
theorem witness_ImmediateRegisterIsLoadedByDstFive : (small [0xF5] 0 []).config.wf = true ∧
    (∃ t, step (small [0xF5] 0 []) = .next t) ∧ ((small [0xF5] 0 []).memByte 0).toNat % 16 = 5 ∧
    (∃ t, step (small [0x54] 0 []) = .next t) ∧ ((small [0x54] 0 []).memByte 0).toNat % 16 ≠ 5 ∧ isMoveDst 14 = true :=
  ⟨by decide, ⟨_, rfl⟩, by decide, ⟨_, rfl⟩, by decide, by decide⟩
theorem witness_SlotFifteenStaysZero : (small [0xFE] 0 []).config.wf = true ∧ (∃ t, step (small [0xFE] 0 []) = .next t) ∧
    resetConfig.wf = true ∧
    (∃ t, Host.Core.run Sys2Proof.core 1 (State.construct resetConfig none none) = .next t) ∧ isMoveDst 14 = true ∧
    ∃ t, exec (.movalu 14) (small [] 0 []) = .next t :=
  ⟨by decide, ⟨_, rfl⟩, by decide, ⟨_, rfl⟩, by decide, ⟨_, rfl⟩⟩
/-- A JMP, a taken JZ, a JZ that is not taken, and a JAL in the mode that discards the link. -/
theorem witness_PcChangesByFetchAndJumpsOnly : (∃ t, step (small [0x4F] 0 []) = .next t) ∧
    decodeByte ((small [0x4F] 0 []).memByte 0) = .jmp ∧
    decodeByte ((small [0x5F] 0 []).memByte 0) = .jz ∧ (small [0x5F] 0 []).readRole .ctl = 0 ∧
    (small [0x5F] 0 [(0, 15)]).readRole .ctl ≠ 0 ∧ (∃ t, step (small [0x5F] 0 [(0, 15)]) = .next t) ∧
    ∃ t, exec .jal { State.reset with config := { resetConfig with jalLinkMode := .discard } } = .next t :=
  ⟨⟨_, rfl⟩, by decide, by decide, by decide, by decide, ⟨_, rfl⟩, ⟨_, rfl⟩⟩
theorem witness_HaltedIsSetByHaltOnlyAndFinal : (∃ t, step (small [0xFF] 0 []) = .next t) ∧
    (∃ t, step (small [0xEF] 0 []) = .next t) ∧ (State.setHalted State.reset).halted = true ∧
    ∃ t, exec .halt State.reset = .next t :=
  ⟨⟨_, rfl⟩, ⟨_, rfl⟩, rfl, ⟨_, rfl⟩⟩
theorem witness_LdiLoadsImmediate : (Instr.ldi 15).wellFormed = true ∧ State.reset.config.wf = true ∧
    ∃ t, exec (.ldi 15) State.reset = .next t ∧ t.readRole .imm ≠ State.reset.readRole .imm :=
  ⟨by decide, by decide, _, rfl, by decide⟩
theorem witness_MovCopiesRegister : isMoveDst 14 = true ∧ isMoveSrc 14 = true ∧ isMoveDst 0 = true ∧ isMoveSrc 5 = true := by
  decide
theorem witness_MovaluWritesRomLookup : isMoveDst 0 = true ∧ isMoveDst 14 = true ∧
    ∀ k, (State.construct resetConfig none none).romByte k = 0 := ⟨by decide, by decide, fun _ => rfl⟩
theorem witness_MemrdLoadsByteAtAddress : (small [0x0F] 0 []).config.wf = true ∧ (small [0x0F] 0 []).halted = false ∧
    (small [0x0F] 0 []).memByte 0 = 0x0F ∧ (small [0x0F] 0 []).ar = 0 := by decide
/-- An instance whose guard refuses the top address. -/
def guarded (slots : List (Nib × Nib)) : State :=
  { small [0x1F] 0 slots with config := { resetConfig with guardRefuses := [0xFFFF] } }
theorem witness_MemwrStoresByteAtAddress : (guarded []).mem.wf memSize = true ∧
    (guarded []).writeGuard (guarded []).ar = true ∧
    (guarded (arSlots 15 15 15 15)).writeGuard (guarded (arSlots 15 15 15 15)).ar = false := by decide
theorem witness_WriteGuardGatesMemwrOnly : State.reset.config.guardRefuses = [] ∧
    (guarded []).config = (guarded [(1, 1)]).config ∧ (guarded []).mem.wf memSize = true ∧
    (guarded []).writeGuard (guarded []).ar = true ∧
    (guarded (arSlots 15 15 15 15)).writeGuard (guarded (arSlots 15 15 15 15)).ar = false ∧
    ∃ t, exec .memrd (guarded []) = .next t := ⟨by decide, by decide, by decide, by decide, by decide, _, rfl⟩
theorem witness_AddressStepsModulo : (small [] 0 (arSlots 15 15 15 15)).config.wf = true ∧ State.reset.config.wf = true := by
  decide
theorem witness_StoreThenLoadRestoresRegisters : (guarded [(1, 7), (2, 10)]).config.wf = true ∧
    (guarded [(1, 7), (2, 10)]).mem.wf memSize = true ∧
    (guarded [(1, 7), (2, 10)]).writeGuard (guarded [(1, 7), (2, 10)]).ar = true := by decide
theorem witness_JmpGoesToAddress : (small [0x4F] 0 []).halted = false ∧ (small [0x4F] 0 []).memByte 0 = 0x4F ∧
    (small [0x4F] 0 []).ar = (small [0x4F] 0 []).pc ∧
    (small [0x4F] 0 [(8, 1)]).ar = (small [0x4F] 0 [(8, 1)]).pc + 1 := by decide
theorem witness_JzJumpsIfControlIsZero : (small [0x5F] 0 []).readRole .ctl = 0 ∧
    (small [0x5F] 0 [(0, 15)]).readRole .ctl ≠ 0 ∧ (small [0x5F] 0 [(0, 15)]).halted = false ∧
    (small [0x5F] 0 [(0, 15)]).memByte 0 = 0x5F := by decide
theorem witness_JalLinksThroughAddress : (small [0x6F] 0 []).config.wf = true ∧
    (small [0x6F] 0 []).config.jalLinkMode = .linkToAddress ∧ (small [0x6F] 0 []).halted = false ∧
    (small [0x6F] 0 []).memByte 0 = 0x6F ∧
    (State.construct { resetConfig with jalLinkMode := .discard } (some [0x6F]) none).config.wf = true ∧
    (State.construct { resetConfig with jalLinkMode := .discard } (some [0x6F]) none).memByte 0 = 0x6F := by decide
theorem witness_JmpReturnsFromJal : (small [0x6F] 0 []).config.wf = true ∧
    (small [0x6F] 0 []).config.jalLinkMode = .linkToAddress ∧ (small [0x6F] 0 []).memByte 0 = 0x6F ∧
    ∃ t, step (small [0x6F] 0 []) = .next t ∧ (small [0x4F] 0 [(8, 1)]).halted = false ∧
      (small [0x4F] 0 [(8, 1)]).memByte 0 = 0x4F ∧ (small [0x4F] 0 [(8, 1)]).ar = t.ar :=
  ⟨by decide, by decide, by decide, _, rfl, by decide, by decide, by decide⟩
theorem witness_ReservedCommandsAreNoOps :
    Instr.cmd7 ∈ [Instr.cmd7, .cmd8, .cmd9, .cmd10, .cmd11, .cmd12, .cmd13] ∧ (small [0x7F] 0 []).halted = false ∧
    ((small [0x7F] 0 []).memByte 0).toNat = 16 * 7 + 15 ∧ ((small [0xDF] 0 []).memByte 0).toNat = 16 * 13 + 15 := by decide
theorem witness_BrkEmitsBreakAndContinues : (small [0xEF] 0 []).halted = false ∧ (small [0xEF] 0 []).memByte 0 = 0xEF := by
  decide
theorem witness_RunEndsExactlyAtHalt :
    Host.Core.run Sys2Proof.core 0 (small [0xFF] 0 []) = .next (small [0xFF] 0 []) ∧
    ∃ u, step (small [0xFF] 0 []) = .next u := ⟨rfl, _, rfl⟩
theorem witness_MemoryIsWrittenByMemwrOnly : (guarded []).mem.wf memSize = true ∧ (∃ t, step (guarded []) = .next t) ∧
    decodeByte ((guarded []).memByte 0) = .memwr ∧ ∃ t, exec .inca State.reset = .next t :=
  ⟨by decide, ⟨_, rfl⟩, by decide, ⟨_, rfl⟩⟩
theorem witness_StoreIsSeenByNextFetch : (small [0x1F] 0 [(8, 1), (1, 15), (2, 15)]).mem.wf memSize = true ∧
    (small [0x1F] 0 [(8, 1), (1, 15), (2, 15)]).halted = false ∧
    (small [0x1F] 0 [(8, 1), (1, 15), (2, 15)]).memByte 0 = 0x1F ∧
    (small [0x1F] 0 [(8, 1), (1, 15), (2, 15)]).ar = 0 + 1 ∧
    (small [0x1F] 0 [(8, 1), (1, 15), (2, 15)]).writeGuard 1 = true ∧
    (0xFF : Byte).toNat = ((small [0x1F] 0 [(8, 1), (1, 15), (2, 15)]).readRole .mlo).toNat +
      16 * ((small [0x1F] 0 [(8, 1), (1, 15), (2, 15)]).readRole .mhi).toNat := by decide
theorem witness_AluRomIsReadOnly : (∃ t, Host.Core.run Sys2Proof.core 1 State.reset = .next t) ∧
    (∀ d, Instr.memrd ≠ .movalu d) ∧ ∃ t, exec .memrd State.reset = .next t :=
  ⟨⟨_, rfl⟩, fun _ h => (by cases h), ⟨_, rfl⟩⟩
/-- A boundary value of each range of operations and selectors. -/
theorem witness_StandardAluTable : 7 ≤ (7 : Nib).toNat ∧ (14 : Nib).toNat ≤ 14 ∧ 2 ≤ (2 : Nib).toNat ∧
    stdAluRom.read 0 = 0 := ⟨by decide, by decide, by decide, by rw [stdAluRom_read 0 (by decide)]; decide⟩
theorem witness_RomImageDecidesAluValue : isMoveDst 3 = true ∧
    { State.reset with aluRom := stdAluRom }.aluRom = (State.construct resetConfig none (some stdAluImage)).aluRom ∧
    State.reset.aluRom = (State.construct resetConfig none none).aluRom := ⟨by decide, rfl, rfl⟩
theorem witness_StandardAluFacts : ∃ f : Nat → Nat → Nat → Nat,
    (∀ op a b, f op a b = (stdAluRom.read (a + 16 * b + 256 * op)).toNat) ∧ 15 < 16 := ⟨_, fun _ _ _ => rfl, by decide⟩
theorem witness_ZeroMemoryRunsForever : State.reset.halted = false ∧
    (∀ k, k < 3 → State.reset.memByte (State.reset.pc + BitVec.ofNat 16 k) = 0) ∧ ∀ b ∈ [(0 : Byte), 0], b = 0 :=
  ⟨rfl, fun _ _ => rfl, by decide⟩
theorem witness_JmpToItselfHangs : (small [0x4F] 0 []).halted = false ∧ (small [0x4F] 0 []).memByte 0 = 0x4F ∧
    (small [0x4F] 0 []).ar = (small [0x4F] 0 []).pc := by decide
/-- Two instances whose maps differ: the second has `CTL` and `GP0` exchanged. -/
theorem witness_BehaviourDependsOnRolesOnly :
    RoleEquivalent (small [] 0 [(0, 9)])
      { small [] 0 [(3, 9)] with config := { resetConfig with regMap := { sampleMap with ctl := 3, gp0 := 0 } } } :=
  ⟨by decide, by decide, fun r => by cases r <;> decide, rfl, rfl, rfl, rfl, rfl, rfl, rfl⟩

end Sys2Proof.Tests
end

section
/-! SUPPORT. What each instruction's meaning is, one equation per constructor, and what an instruction does to each part of
the state. Proofs about `exec` and `step` go through these and do not unfold the meanings. -/

namespace Sys2Proof.Machine

/-! ### One equation per instruction -/

@[simp] theorem exec_ldi (n : Nib) (s : State) : exec (.ldi n) s = .next (s.writeRole .imm n) := rfl

@[simp] theorem exec_memrd (s : State) : exec .memrd s = .next (s.setDataByte (s.memByte s.ar)) := rfl

@[simp] theorem exec_memwr (s : State) :
    exec .memwr s = .next (if s.writeGuard s.ar = true then s.storeByte s.ar s.dataByte else s) := rfl

@[simp] theorem exec_inca (s : State) : exec .inca s = .next (s.setAr (s.ar + 1)) := rfl

@[simp] theorem exec_deca (s : State) : exec .deca s = .next (s.setAr (s.ar + 65535)) := rfl

@[simp] theorem exec_jmp (s : State) : exec .jmp s = .next (s.setPc s.ar) := rfl

@[simp] theorem State.ctlIsZero_iff (s : State) : s.ctlIsZero = true ↔ s.readRole .ctl = 0 := beq_iff_eq

@[simp] theorem exec_jz (s : State) : exec .jz s = .next (if s.readRole .ctl = 0 then s.setPc s.ar else s) := by
  simp only [← State.ctlIsZero_iff]
  rfl

@[simp] theorem exec_jal (s : State) : exec .jal s =
    .next (if s.config.jalLinkMode = .linkToAddress then (s.setPc s.ar).setAr s.pc else s.setPc s.ar) := by
  change execJal s = _
  cases hm : s.config.jalLinkMode <;> simp [execJal, hm]

@[simp] theorem exec_cmd7 (s : State) : exec .cmd7 s = .next s := rfl

@[simp] theorem exec_cmd8 (s : State) : exec .cmd8 s = .next s := rfl

@[simp] theorem exec_cmd9 (s : State) : exec .cmd9 s = .next s := rfl

@[simp] theorem exec_cmd10 (s : State) : exec .cmd10 s = .next s := rfl

@[simp] theorem exec_cmd11 (s : State) : exec .cmd11 s = .next s := rfl

@[simp] theorem exec_cmd12 (s : State) : exec .cmd12 s = .next s := rfl

@[simp] theorem exec_cmd13 (s : State) : exec .cmd13 s = .next s := rfl

@[simp] theorem exec_brk (s : State) : exec .brk s = .next (s.emit (.brk s.pc s.dumpRegs)) := rfl

@[simp] theorem exec_halt (s : State) :
    exec .halt s = .next (s.emit (.halt s.pc s.dumpRegs s.mem)).setHalted := rfl

@[simp] theorem exec_movalu (d : Nib) (s : State) : exec (.movalu d) s = .next (s.writeSlot d s.aluValue) := rfl

@[simp] theorem exec_mov (d src : Nib) (s : State) :
    exec (.mov d src) s = .next (s.writeSlot d (s.readSlot src)) := rfl

/-- Every instruction completes in every state. -/
theorem exec_completes (i : Instr) (s : State) : ∃ t, exec i s = .next t := by
  cases i with
  | jal => exact ⟨_, exec_jal s⟩
  | _ => exact ⟨_, rfl⟩

/-! ### The part of the state outside the registers -/

/-- What the execution of `i` in `s` leaves in each field of the next state `t`, but for the registers. -/
structure ExecFrame (i : Instr) (s t : State) : Prop where
  /-- `pc` is overwritten by JMP, JAL and a taken JZ only, with `AR` (R30). -/
  pc : t.pc = if i = .jmp ∨ i = .jal ∨ (i = .jz ∧ s.readRole .ctl = 0) then s.ar else s.pc
  /-- HALT sets the halted flag and nothing else changes it (R31). -/
  halted : t.halted = if i = .halt then true else s.halted
  /-- MEMWR stores at `AR` where the guard permits it, and nothing else writes memory (R32). -/
  mem : t.mem = if i = .memwr ∧ s.writeGuard s.ar = true then s.mem.write s.ar.toNat s.dataByte else s.mem
  /-- The ALU ROM is read-only (R34). -/
  aluRom : t.aluRom = s.aluRom
  /-- The construction parameters are fixed (R6). -/
  config : t.config = s.config
  /-- BRK and HALT append their event (R161, R162). -/
  events : t.events = s.events ++
    if i = .brk then [.brk s.pc s.dumpRegs] else if i = .halt then [.halt s.pc s.dumpRegs s.mem] else []

/-- Every instruction meets the frame. -/
theorem exec_frame {i : Instr} {s t : State} (h : exec i s = .next t) : ExecFrame i s t := by
  cases i with
  | memwr | jz | jal =>
    simp only [exec_memwr, exec_jz, exec_jal, Host.Outcome.next.injEq] at h
    subst h
    split <;> constructor <;> simp_all
  | _ =>
    cases h
    constructor <;> simp

/-- Every event added to the log carries the register dump of the state the instruction ran in. -/
theorem exec_event_regs {i : Instr} {s t : State} (h : exec i s = .next t) {e : Event} (he : e ∈ t.events) :
    e ∈ s.events ∨ e.regs = s.dumpRegs := by
  rw [(exec_frame h).events, List.mem_append] at he
  refine he.imp_right fun hnew => ?_
  split at hnew
  · rw [List.mem_singleton.mp hnew]; rfl
  · split at hnew
    · rw [List.mem_singleton.mp hnew]; rfl
    · cases hnew

/-! ### The registers -/

/-- A well-formed move into a role's slot is one the access table lists, since `IMM` and `ALUR` are no move
destinations (R21, R65). -/
theorem MovesInto.writtenBy {c : Config} {i : Instr} {r : Role} (hi : i.wellFormed = true)
    (h : MovesInto i (c.regMap.index r)) : WrittenBy c i r := by
  cases r with
  | imm | alur => obtain rfl | ⟨src, rfl⟩ := h <;> simp [Instr.wellFormed, isMoveDst, RegMap.index] at hi
  | ctl | alua | alub | aluop | gp0 | gp1 | gp2 | gp3 => exact h
  | mlo | mhi | ad0 | ad1 | ad2 | ad3 => exact .inl h

/-- Writing `AR` leaves every role but the four address nibbles alone. -/
theorem State.readRole_setAr_of_not_address {s : State} (hw : s.config.wf = true) (v : Addr) {r : Role} (h0 : r ≠ .ad0)
    (h1 : r ≠ .ad1) (h2 : r ≠ .ad2) (h3 : r ≠ .ad3) : (s.setAr v).readRole r = s.readRole r :=
  s.setAr_regsSameBut v _ (by simp [State.addressSlots, State.slotOf_ne hw, *])

/-- Splitting a byte leaves every role but `MLO` and `MHI` alone. -/
theorem State.readRole_setDataByte_of_not_data {s : State} (hw : s.config.wf = true) (b : Byte) {r : Role}
    (hlo : r ≠ .mlo) (hhi : r ≠ .mhi) : (s.setDataByte b).readRole r = s.readRole r :=
  s.setDataByte_regsSameBut b _ (by simp [State.slotOf_ne hw, *])

/-- A well-formed instruction leaves every role alone that the "written by" column of R21 does not give it. -/
theorem exec_readRole_of_not_writtenBy {i : Instr} {s t : State} (hi : i.wellFormed = true) (hw : s.config.wf = true)
    (h : exec i s = .next t) {r : Role} (hr : ¬ WrittenBy s.config i r) : t.readRole r = s.readRole r := by
  have hmove : ¬ MovesInto i (s.slotOf r) := fun hm => hr (hm.writtenBy hi)
  cases i with
  | ldi n =>
    cases h
    exact State.readRole_writeRole_ne hw n fun e => hr (by rw [e]; exact ⟨n, rfl⟩)
  | movalu d =>
    cases h
    exact State.readSlot_writeSlot_ne s _ fun e => hmove (.inl (congrArg _ e.symm))
  | mov d src =>
    cases h
    exact State.readSlot_writeSlot_ne s _ fun e => hmove (.inr ⟨src, congrArg (Instr.mov · src) e.symm⟩)
  | memrd =>
    cases h
    apply State.readRole_setDataByte_of_not_data hw <;> rintro rfl <;> simp [WrittenBy] at hr
  | inca | deca =>
    cases h
    apply State.readRole_setAr_of_not_address hw <;> rintro rfl <;> simp [WrittenBy] at hr
  | jal =>
    rw [exec_jal] at h
    cases h
    split
    · next hm => apply State.readRole_setAr_of_not_address hw <;> rintro rfl <;> simp [WrittenBy, hm] at hr
    · rfl
  | memwr | jz =>
    simp only [exec_memwr, exec_jz, Host.Outcome.next.injEq] at h
    subst h
    split <;> rfl
  | _ => cases h; rfl

/-- What an instruction leaves in the registers depends on the registers and the parameters, for a MEMRD also on memory, for
a MOVALU on the ALU ROM and for a linking JAL on `pc`; on nothing else (R21, R30, R32, R34). -/
theorem exec_regs_congr {i : Instr} {s s' t t' : State} (h : exec i s = .next t) (h' : exec i s' = .next t')
    (hregs : s'.regs = s.regs) (hconfig : s'.config = s.config) (hmem : i = .memrd → s'.mem = s.mem)
    (hrom : (∃ d, i = .movalu d) → s'.aluRom = s.aluRom)
    (hpc : i = .jal → s.config.jalLinkMode = .linkToAddress → s'.pc = s.pc) : t'.regs = t.regs := by
  obtain ⟨regs, pc, halted, mem, rom, config, events⟩ := s
  obtain ⟨regs', pc', halted', mem', rom', config', events'⟩ := s'
  obtain rfl : regs' = regs := hregs
  obtain rfl : config' = config := hconfig
  cases i with
  | memrd =>
    obtain rfl : mem' = mem := hmem rfl
    cases h
    cases h'
    rfl
  | movalu d =>
    obtain rfl : rom' = rom := hrom ⟨d, rfl⟩
    cases h
    cases h'
    rfl
  | jal =>
    rw [exec_jal] at h h'
    cases h
    cases h'
    split
    · next hlink =>
      obtain rfl : pc' = pc := hpc rfl hlink
      rfl
    · rfl
  | memwr | jz =>
    simp only [exec_memwr, exec_jz, Host.Outcome.next.injEq] at h h'
    subst h h'
    split <;> split <;> rfl
  | _ =>
    cases h
    cases h'
    rfl

/-- Equal register files agree at every slot. -/
theorem regsSameBut_of_regs_eq {s t : State} (h : t.regs = s.regs) (slots : List Nib) : RegsSameBut slots s t :=
  fun j _ => congrArg (Slots.get · j) h

end Sys2Proof.Machine
end

section
/-! SUPPORT. What the decoder gives for the bytes that the statements about the registers name, and what a step does in terms
of the byte it fetches. -/

namespace Sys2Proof

/-- Every byte decodes to a well-formed instruction (R66). -/
theorem decodeByte_wellFormed (b : Byte) : (decodeByte b).wellFormed = true := by
  have hcmd : ∀ k, (commandInstr k).wellFormed = true := by decide
  unfold decodeByte
  split
  · rfl
  · split
    · exact hcmd _
    · split <;> simp_all [Instr.wellFormed, isMoveDst, isMoveSrc]

/-- A load-immediate is a byte with dst 5, and its operand is the src nibble (R63, R100). -/
theorem decodeByte_eq_ldi_iff {b : Byte} {n : Nib} : decodeByte b = .ldi n ↔ dstField b = 5 ∧ srcField b = n := by
  have hcmd : ∀ k n, commandInstr k ≠ .ldi n := by decide
  unfold decodeByte
  split
  · simp [*]
  · split
    · simp [*]
    · split <;> simp_all

/-- The dst nibble of a byte is 5, as a number. -/
theorem dstField_eq_five_iff {b : Byte} : dstField b = 5 ↔ b.toNat % 16 = 5 := by
  rw [← BitVec.toNat_inj, dstField_toNat]
  rfl

end Sys2Proof

namespace Sys2Proof.Machine

/-- A step leaves every role alone that the fetched instruction does not write by R21. -/
theorem step_readRole_of_not_writtenBy {s t : State} (hw : s.config.wf = true) (h : step s = .next t) {r : Role}
    (hr : ¬ WrittenBy s.config (decodeByte (s.memByte s.pc)) r) : t.readRole r = s.readRole r :=
  exec_readRole_of_not_writtenBy (s := s.advancePc) (decodeByte_wellFormed _) hw (step_eq_next_iff.mp h).2 hr

/-- No step changes the construction parameters (R6). -/
theorem step_config {s t : State} (h : step s = .next t) : t.config = s.config :=
  (exec_frame (step_eq_next_iff.mp h).2).config

/-- No step changes slot 15 (R23). -/
theorem step_readSlot_fifteen {s t : State} (hw : s.config.wf = true) (h : step s = .next t) :
    t.readSlot 15 = s.readSlot 15 :=
  step_readRole_of_not_writtenBy (r := .alur) hw h not_false

end Sys2Proof.Machine
end

section
/-! The statements about the register file and the address register (10_state.md R22, R23, R27, R28). -/

namespace Sys2Proof.Machine

/-- Settles O13: the packed sum of R27, and the round trip, nibbles and frame of `setAr` (R28). -/
theorem addressRegisterRoundTrip : Obligations.AddressRegisterRoundTrip := by
  refine ⟨State.ar_toNat, fun c m a => ?_, fun s v hw => ?_⟩
  · apply BitVec.eq_of_toNat_eq
    simp [State.ar_toNat, State.readRole, State.readSlot]
  · obtain ⟨h0, h1, h2, h3⟩ := State.setAr_readRole hw v
    have hv : v.toNat < 65536 := v.isLt
    have hframe : RestSame s (s.setAr v) := ⟨fun _ => rfl, rfl, rfl, rfl⟩
    refine ⟨State.ar_setAr hw v, ?_, ?_, ?_, ?_, State.setAr_regsSameBut s v, rfl, fun _ => rfl, hframe⟩
    · rw [h0, extract_nibble_toNat, Nat.pow_zero, Nat.div_one]
    · simp only [h1, extract_nibble_toNat, Nat.reducePow]
    · simp only [h2, extract_nibble_toNat, Nat.reducePow]
    · rw [h3, extract_nibble_toNat]
      omega

/-- Settles O15: dst 5 decodes to a load-immediate, and by R21 nothing else writes `IMM`. -/
theorem immediateRegisterIsLoadedByDstFive : Obligations.ImmediateRegisterIsLoadedByDstFive := by
  refine ⟨fun _ => rfl, fun _ _ _ => rfl, fun s t hw h => ⟨fun hdst => ?_, fun hdst => ?_⟩, fun d s _ => ?_⟩
  · have hldi := decodeByte_eq_ldi_iff.mpr ⟨dstField_eq_five_iff.mpr hdst, rfl⟩
    obtain ⟨-, hexec⟩ := step_eq_next_iff.mp h
    rw [State.fetchByte, hldi] at hexec
    cases hexec
    rw [State.writeRole_def, State.slotOf_imm, State.readSlot_writeSlot_self, srcField_toNat]
  · have hnot : ¬ WrittenBy s.config (decodeByte (s.memByte s.pc)) .imm := fun ⟨_, hn⟩ =>
      hdst (dstField_eq_five_iff.mp (decodeByte_eq_ldi_iff.mp hn).1)
    exact step_readRole_of_not_writtenBy hw h hnot
  · exact ⟨_, rfl, State.readSlot_writeSlot_self s d _⟩

/-- What a run from construction keeps of slot 15 (R23): it is 0, and so it is in every dump handed over. -/
structure State.SlotFifteenZero (s : State) : Prop where
  configWf : s.config.wf = true
  slot : s.readSlot 15 = 0
  dumps : ∀ e ∈ s.events, e.regs.get 15 = 0

theorem State.construct_slotFifteenZero {c : Config} (hc : c.wf = true) (m a : Option (List Byte)) :
    (State.construct c m a).SlotFifteenZero :=
  ⟨hc, rfl, fun _ he => absurd he List.not_mem_nil⟩

theorem step_slotFifteenZero {s t : State} (hs : s.SlotFifteenZero) (h : step s = .next t) : t.SlotFifteenZero where
  configWf := step_config h ▸ hs.configWf
  slot := (step_readSlot_fifteen hs.configWf h).trans hs.slot
  dumps e he := by
    obtain hold | hnew := exec_event_regs (step_eq_next_iff.mp h).2 he
    · exact hs.dumps e hold
    · apply BitVec.eq_of_toNat_eq
      rw [hnew, State.dumpRegs_get, State.advancePc_readSlot, hs.slot]
      rfl

/-- The ALU value does not depend on slot 15 (R23). -/
theorem State.aluValue_writeSlot_fifteen {s : State} (hw : s.config.wf = true) (v : Nib) :
    (s.writeSlot 15 v).aluValue = s.aluValue := by
  have h {r : Role} (hr : r ≠ .alur) : (s.writeSlot 15 v).readRole r = s.readRole r :=
    State.readRole_writeRole_ne (r := .alur) hw v hr
  have hkey : (s.writeSlot 15 v).aluKey = s.aluKey := by
    unfold State.aluKey
    rw [h (r := .alua) (by decide), h (r := .alub) (by decide), h (r := .aluop) (by decide)]
  rw [State.aluValue, hkey]
  rfl

/-- Settles O16: R21 gives `ALUR` no writer; the run clause is the invariant `SlotFifteenZero`. -/
theorem slotFifteenStaysZero : Obligations.SlotFifteenStaysZero := by
  refine ⟨fun _ => rfl, fun s t => step_readSlot_fifteen, fun c m a n t hc hrun => ?_, fun d v s t _ hw h => ?_⟩
  · obtain ⟨-, hslot, hdumps⟩ :=
      run_keeps (fun _ _ => step_slotFifteenZero) (State.construct_slotFifteenZero hc m a) hrun
    exact ⟨hslot, hdumps⟩
  · cases h
    refine ⟨_, rfl, ?_⟩
    rw [State.readSlot_writeSlot_self, State.readSlot_writeSlot_self, State.aluValue_writeSlot_fifteen hw]

end Sys2Proof.Machine
end

section
/-! The statements about `pc`, the halted flag and main memory (10_state.md R30, R31, R32). In each, an instruction runs in a
second state that differs in that one field: the registers agree by `exec_regs_congr`, the rest by `exec_frame`. -/

namespace Sys2Proof.Machine

/-! ### The program counter -/

/-- With another `pc`, every instruction but a linking JAL leaves the same registers and memory (R30). -/
theorem exec_with_pc {i : Instr} {s t : State} (p : Addr) (h : exec i s = .next t)
    (hlink : ¬ (i = .jal ∧ s.config.jalLinkMode = .linkToAddress)) :
    ∃ t', exec i { s with pc := p } = .next t' ∧ t'.regs = t.regs ∧ t'.mem = t.mem := by
  obtain ⟨t', h'⟩ := exec_completes i { s with pc := p }
  refine ⟨t', h', ?_, (exec_frame h').mem.trans (exec_frame h).mem.symm⟩
  exact exec_regs_congr h h' rfl rfl (fun _ => rfl) (fun _ => rfl) fun hi hm => absurd ⟨hi, hm⟩ hlink

/-- Settles O17: `exec` acts on the `pc` that the fetch has incremented, and `exec_with_pc`. -/
theorem pcChangesByFetchAndJumpsOnly : Obligations.PcChangesByFetchAndJumpsOnly := by
  refine ⟨fun _ _ _ => rfl, fun s t h => ?_, fun i s t p h hlink => ?_⟩
  · have hpc := (exec_frame (step_eq_next_iff.mp h).2).pc
    refine ⟨fun hjump => hpc.trans (if_pos hjump), fun hjump => ?_⟩
    rw [hpc.trans (if_neg hjump)]
    exact BitVec.toNat_add s.pc 1
  · obtain ⟨t', h', hregs, hmem⟩ := exec_with_pc p h hlink
    exact ⟨t', h', regsSameBut_of_regs_eq hregs [], fun a => congrArg (Memory.read · a.toNat) hmem⟩

/-! ### The halted flag -/

/-- No instruction sees the halted flag: with another value of it, the next state differs in the flag alone (R31). -/
theorem exec_with_halted {i : Instr} {s t : State} (b : Bool) (h : exec i s = .next t) :
    exec i { s with halted := b } = .next { t with halted := if i = .halt then true else b } := by
  obtain ⟨t', h'⟩ := exec_completes i { s with halted := b }
  have hregs : t'.regs = t.regs := exec_regs_congr h h' rfl rfl (fun _ => rfl) (fun _ => rfl) fun _ _ => rfl
  have hf := exec_frame h
  have hf' := exec_frame h'
  have hpc : t'.pc = t.pc := hf'.pc.trans hf.pc.symm
  have hmem : t'.mem = t.mem := hf'.mem.trans hf.mem.symm
  have hrom : t'.aluRom = t.aluRom := hf'.aluRom.trans hf.aluRom.symm
  have hconfig : t'.config = t.config := hf'.config.trans hf.config.symm
  have hevents : t'.events = t.events := hf'.events.trans hf.events.symm
  rw [h', ← hregs, ← hpc, ← hmem, ← hrom, ← hconfig, ← hevents, ← hf'.halted]

/-- Settles O18: a machine that steps is not halted, and of the instructions only HALT sets the flag. -/
theorem haltedIsSetByHaltOnlyAndFinal : Obligations.HaltedIsSetByHaltOnlyAndFinal := by
  refine ⟨fun _ _ _ => rfl, fun s t h => ?_, fun s h => ?_, fun i s t b h =>
    ⟨(exec_frame h).halted, exec_with_halted b h⟩⟩
  · obtain ⟨hrunning, hexec⟩ := step_eq_next_iff.mp h
    have hflag := (exec_frame hexec).halted
    rw [State.advancePc_halted, hrunning, State.fetchByte] at hflag
    simp [hflag]
  · have hstep := step_of_halted h
    exact ⟨hstep, by rw [stepRelation, hstep]⟩

/-! ### Main memory -/

/-- With other memory, every instruction but MEMRD and HALT leaves everything but memory the same (R32). -/
theorem exec_with_mem {i : Instr} {s t : State} (m : Memory) (h : exec i s = .next t) (hread : i ≠ .memrd)
    (hdump : i ≠ .halt) :
    ∃ t', exec i { s with mem := m } = .next t' ∧ t'.regs = t.regs ∧ t'.pc = t.pc ∧ RestSame t t' := by
  obtain ⟨t', h'⟩ := exec_completes i { s with mem := m }
  have hregs : t'.regs = t.regs :=
    exec_regs_congr h h' rfl rfl (fun hi => absurd hi hread) (fun _ => rfl) fun _ _ => rfl
  have hf := exec_frame h
  have hf' := exec_frame h'
  have hrom : t'.aluRom = t.aluRom := hf'.aluRom.trans hf.aluRom.symm
  have hevents : t'.events = t.events := by
    simp only [hf.events, hf'.events, if_neg hdump]
    rfl
  exact ⟨t', h', hregs, hf'.pc.trans hf.pc.symm, fun k => congrArg (Memory.read · k.toNat) hrom,
    hf'.halted.trans hf.halted.symm, hevents, hf'.config.trans hf.config.symm⟩

/-- Every byte of memory after an instruction (R32, R122). -/
theorem exec_memByte {i : Instr} {s t : State} (hm : s.mem.wf memSize = true) (h : exec i s = .next t) (a : Addr) :
    t.memByte a = if i = .memwr ∧ s.writeGuard s.ar = true ∧ a = s.ar then s.dataByte else s.memByte a := by
  rw [State.memByte, (exec_frame h).mem]
  by_cases hwrite : i = .memwr ∧ s.writeGuard s.ar = true
  · rw [if_pos hwrite]
    refine (State.memByte_storeByte hm s.ar a s.dataByte).trans ?_
    simp [hwrite]
  · rw [if_neg hwrite, if_neg fun hall => hwrite ⟨hall.1, hall.2.1⟩]
    rfl

/-- Settles O35: every byte after a step by `exec_memByte`, the readers by `exec_with_mem`, construction by R33. -/
theorem memoryIsWrittenByMemwrOnly : Obligations.MemoryIsWrittenByMemwrOnly := by
  refine ⟨fun s t hm h => ?_, fun i s t m hread hdump h => ?_, fun c m a i => ?_⟩
  · exact exec_memByte (s := s.advancePc) hm (step_eq_next_iff.mp h).2
  · obtain ⟨t', h', hregs, hpc, hrest⟩ := exec_with_mem m h hread hdump
    exact ⟨t', h', regsSameBut_of_regs_eq hregs [], hpc, hrest⟩
  · exact (Memory.ofImage_read memSize m i.toNat).trans (if_pos i.isLt)

end Sys2Proof.Machine
end

section
/-! SUPPORT. What the statements of 20_memory.md rest on: MEMWR by the answer of the guard, and which instructions read the
ALU ROM and the guard. -/

namespace Sys2Proof.Machine

/-! ### MEMWR and the guard -/

/-- MEMWR stores where the guard permits it (R122). -/
theorem exec_memwr_of_permitted {s : State} (h : s.writeGuard s.ar = true) :
    exec .memwr s = .next (s.storeByte s.ar s.dataByte) := by
  rw [exec_memwr, if_pos h]

/-- MEMWR at an address the guard refuses changes nothing (R122). -/
theorem exec_memwr_of_refused {s : State} (h : s.writeGuard s.ar = false) : exec .memwr s = .next s := by
  rw [exec_memwr, if_neg (by simp [h])]

/-- What a store leaves at its own address. -/
theorem State.memByte_storeByte_self {s : State} (hm : s.mem.wf memSize = true) (a : Addr) (v : Byte) :
    (s.storeByte a v).memByte a = v :=
  (State.memByte_storeByte hm a a v).trans (if_pos rfl)

/-- A machine whose next instruction is a permitted MEMWR stores at `AR` and goes on behind it (R61, R122). -/
theorem step_memwr_of_permitted {s : State} (hrunning : s.halted = false) (hfetch : s.memByte s.pc = 0x1F)
    (hpermit : s.writeGuard s.ar = true) : step s = .next (s.advancePc.storeByte s.ar s.dataByte) := by
  have hdecode : decodeByte s.fetchByte = .memwr := by
    rw [State.fetchByte, hfetch]
    decide
  rw [step_of_not_halted hrunning, hdecode]
  exact exec_memwr_of_permitted (s := s.advancePc) hpermit

/-! ### Who reads the ALU ROM and the guard -/

/-- The state with another ALU ROM and another guard. -/
def State.withRomAndGuard (s : State) (m : Memory) (l : List Addr) : State :=
  { s with aluRom := m, config := { s.config with guardRefuses := l } }

@[simp] theorem State.withRomAndGuard_pc (s : State) (m : Memory) (l : List Addr) : (s.withRomAndGuard m l).pc = s.pc := rfl

@[simp] theorem State.withRomAndGuard_jalLinkMode (s : State) (m : Memory) (l : List Addr) :
    (s.withRomAndGuard m l).config.jalLinkMode = s.config.jalLinkMode := rfl

@[simp] theorem State.withRomAndGuard_readRole (s : State) (m : Memory) (l : List Addr) (r : Role) :
    (s.withRomAndGuard m l).readRole r = s.readRole r := rfl

@[simp] theorem State.withRomAndGuard_ar (s : State) (m : Memory) (l : List Addr) : (s.withRomAndGuard m l).ar = s.ar := rfl

@[simp] theorem State.withRomAndGuard_setPc (s : State) (m : Memory) (l : List Addr) (a : Addr) :
    (s.withRomAndGuard m l).setPc a = (s.setPc a).withRomAndGuard m l := rfl

@[simp] theorem State.withRomAndGuard_setAr (s : State) (m : Memory) (l : List Addr) (v : Addr) :
    (s.withRomAndGuard m l).setAr v = (s.setAr v).withRomAndGuard m l := rfl

/-- Of all instructions only MOVALU reads the ALU ROM (R34) and only MEMWR reads the guard (R48): every other one does the
same with any ROM and any guard in their place. -/
theorem exec_withRomAndGuard {i : Instr} {s t : State} (m : Memory) (l : List Addr) (h : exec i s = .next t)
    (hrom : (∃ d, i = .movalu d) → m = s.aluRom) (hguard : i = .memwr → l = s.config.guardRefuses) :
    exec i (s.withRomAndGuard m l) = .next (t.withRomAndGuard m l) := by
  cases i with
  | movalu d =>
    obtain rfl := hrom ⟨d, rfl⟩
    cases h
    rfl
  | memwr =>
    obtain rfl := hguard rfl
    cases h
    rw [apply_ite (State.withRomAndGuard · m s.config.guardRefuses)]
    rfl
  | jz | jal =>
    simp only [exec_jz, exec_jal] at h
    cases h
    split <;> simp_all
  | _ =>
    cases h
    rfl

/-- With another ALU ROM, every instruction but MOVALU leaves everything but the ROM the same (R34). -/
theorem exec_with_rom {i : Instr} {s t : State} (m : Memory) (h : exec i s = .next t) (hi : ∀ d, i ≠ .movalu d) :
    exec i { s with aluRom := m } = .next { t with aluRom := m } := by
  refine (exec_withRomAndGuard m s.config.guardRefuses h (fun ⟨d, hd⟩ => absurd hd (hi d)) fun _ => rfl).trans ?_
  rw [← (exec_frame h).config]
  rfl

/-- Under another guard, every instruction but MEMWR leaves everything but the guard the same (R48). -/
theorem exec_with_guard {i : Instr} {s t : State} (l : List Addr) (h : exec i s = .next t) (hi : i ≠ .memwr) :
    exec i { s with config := { s.config with guardRefuses := l } } =
      .next { t with config := { t.config with guardRefuses := l } } := by
  refine (exec_withRomAndGuard s.aluRom l h (fun _ => rfl) fun hw => absurd hw hi).trans ?_
  rw [← (exec_frame h).aluRom]
  rfl

/-- No step changes the ALU ROM (R34, R55). -/
theorem step_aluRom {s t : State} (h : step s = .next t) : t.aluRom = s.aluRom :=
  (exec_frame (step_eq_next_iff.mp h).2).aluRom

end Sys2Proof.Machine
end

section
/-! The statements about accesses, the write guard and the ALU ROM (20_memory.md R42, R45, R48, R53, R55). -/

namespace Sys2Proof.Machine

/-- Settles O6: no meaning has a failing branch, and a machine that is not halted steps by executing what it fetches. -/
theorem everyInstructionCompletes : Obligations.EveryInstructionCompletes := by
  refine ⟨exec_completes, fun s hrunning => ?_⟩
  obtain ⟨t, ht⟩ := exec_completes (decodeByte s.fetchByte) s.advancePc
  exact ⟨t, (step_of_not_halted hrunning).trans ht⟩

/-- Settles O24: MEMWR does what the guard answers, and nothing else reads the guard (`exec_with_guard`). -/
theorem writeGuardGatesMemwrOnly : Obligations.WriteGuardGatesMemwrOnly := by
  refine ⟨fun s a hnone => ?_, fun s t a hconfig => ?_, fun s => exec_memwr_of_refused, fun s hm hpermit => ?_,
    fun _ _ _ => rfl, fun i s t l hi h => exec_with_guard l h hi⟩
  · simp [State.writeGuard, hnone]
  · rw [State.writeGuard, hconfig, State.writeGuard]
  · exact ⟨_, exec_memwr_of_permitted hpermit, State.memByte_storeByte_self hm _ _⟩

/-- Settles O36: the MEMWR stores at the address its own fetch moved `pc` to, which is where the next step fetches. -/
theorem storeIsSeenByNextFetch : Obligations.StoreIsSeenByNextFetch := by
  intro s b hm hrunning hfetch har hpermit hb
  obtain rfl : b = s.dataByte := BitVec.eq_of_toNat_eq (hb.trans s.dataByte_toNat.symm)
  have hstored : (s.advancePc.storeByte s.ar s.dataByte).memByte (s.pc + 1) = s.dataByte := by
    rw [← har]
    exact State.memByte_storeByte_self (s := s.advancePc) hm s.ar s.dataByte
  refine ⟨_, step_memwr_of_permitted hrunning hfetch hpermit, rfl, hstored, ?_⟩
  have hpc : s.pc + 1 + 1 = s.pc + 2 := BitVec.add_assoc s.pc 1 1
  rw [← hpc, step_of_not_halted (s := s.advancePc.storeByte s.ar s.dataByte) hrunning]
  exact congrArg (fun byte => exec (decodeByte byte) _) hstored

/-- Settles O37: the ROM reads as R33 normalises its image, no step changes it, and `exec_with_rom`. -/
theorem aluRomIsReadOnly : Obligations.AluRomIsReadOnly := by
  refine ⟨fun c m a k => ?_, fun n s t hrun => ?_, fun i s t m hi h => exec_with_rom m h hi⟩
  · exact (Memory.ofImage_read romSize a k.toNat).trans (if_pos k.isLt)
  · have hkeep (u v : State) (hu : u.aluRom = s.aluRom ∧ u.config = s.config) (hstep : step u = .next v) :
        v.aluRom = s.aluRom ∧ v.config = s.config :=
      ⟨(step_aluRom hstep).trans hu.1, (step_config hstep).trans hu.2⟩
    exact run_keeps hkeep ⟨rfl, rfl⟩ hrun

end Sys2Proof.Machine
end

section
/-! SUPPORT. What the decoder gives in each case of 30_encoding.md R63, that encoding undoes it, and a step in terms of the
instruction that the byte at `pc` decodes to. -/

namespace Sys2Proof

/-! ### The fields of a byte -/

/-- A byte that is given as a number in two nibbles has those nibbles as its fields (R62). -/
theorem fields_of_toNat_eq {b : Byte} {src dst : Nib} (h : b.toNat = 16 * src.toNat + dst.toNat) :
    srcField b = src ∧ dstField b = dst := by
  have hdst := dst.isLt
  constructor
  · apply BitVec.eq_of_toNat_eq
    rw [srcField_toNat]
    omega
  · apply BitVec.eq_of_toNat_eq
    rw [dstField_toNat]
    omega

/-- A byte is built from its own fields (R65). -/
theorem fieldsByte_fields (b : Byte) : fieldsByte (srcField b) (dstField b) = b := by
  obtain ⟨hsrc, hdst⟩ := fields_fieldsByte (srcField b) (dstField b)
  exact fields_inj hsrc hdst

/-! ### The cases of the decoder -/

theorem decodeByte_of_dst_five {b : Byte} (h : dstField b = 5) : decodeByte b = .ldi (srcField b) := if_pos h

theorem decodeByte_of_dst_fifteen {b : Byte} (h : dstField b = 15) : decodeByte b = commandInstr (srcField b) := by
  rw [decodeByte, if_neg (by simp [h]), if_pos h]

theorem decodeByte_of_src_fifteen {b : Byte} (h5 : dstField b ≠ 5) (h15 : dstField b ≠ 15) (h : srcField b = 15) :
    decodeByte b = .movalu (dstField b) := by
  rw [decodeByte, if_neg h5, if_neg h15, if_pos h]

theorem decodeByte_of_move {b : Byte} (h5 : dstField b ≠ 5) (h15 : dstField b ≠ 15) (h : srcField b ≠ 15) :
    decodeByte b = .mov (dstField b) (srcField b) := by
  rw [decodeByte, if_neg h5, if_neg h15, if_neg h]

/-! ### Encoding what was decoded -/

/-- The byte of command `k` has src `k` and dst 15 (R64). -/
theorem encode_commandInstr : ∀ k : Nib, encode (commandInstr k) = fieldsByte k 15 := by decide

/-- Every byte is the byte of the instruction it decodes to (R65, R66). -/
theorem encode_decodeByte (b : Byte) : encode (decodeByte b) = b := by
  suffices h : encode (decodeByte b) = fieldsByte (srcField b) (dstField b) from h.trans (fieldsByte_fields b)
  by_cases h5 : dstField b = 5
  · rw [decodeByte_of_dst_five h5, h5, encode]
  by_cases h15 : dstField b = 15
  · rw [decodeByte_of_dst_fifteen h15, h15, encode_commandInstr]
  by_cases hsrc : srcField b = 15
  · rw [decodeByte_of_src_fifteen h5 h15 hsrc, hsrc, encode]
  · rw [decodeByte_of_move h5 h15 hsrc, encode]

end Sys2Proof

namespace Sys2Proof.Machine

/-- A machine that is not halted executes the instruction at `pc`, with `pc` already incremented (R60, R61). -/
theorem step_of_decodeByte {s : State} (hrunning : s.halted = false) {i : Instr} (hi : decodeByte (s.memByte s.pc) = i) :
    step s = exec i { s with pc := s.pc + 1 } := by
  subst hi
  exact step_of_not_halted hrunning

end Sys2Proof.Machine
end

section
/-! The statements about the instruction cycle (30_encoding.md R60, R61, R63, R64). -/

namespace Sys2Proof.Machine

/-- Settles O5: every byte is the byte of what it decodes to, every instruction completes, and the fetch reads no guard. -/
theorem fetchIncrementsBeforeExecute : Obligations.FetchIncrementsBeforeExecute := by
  intro s l hrunning
  have hstep := step_of_decodeByte hrunning rfl
  obtain ⟨t, ht⟩ := exec_completes (decodeByte (s.memByte s.pc)) { s with pc := s.pc + 1 }
  refine ⟨decodeByte (s.memByte s.pc), s.pc + 1, t, encode_decodeByte _, BitVec.toNat_add s.pc 1, hstep, hstep.trans ht, ?_⟩
  exact step_of_decodeByte (s := { s with config := { s.config with guardRefuses := l } }) hrunning rfl

/-- Settles O3: the step by the decoded instruction, once for each case of the decoder. -/
theorem stepIsFetchDecodeExecute : Obligations.StepIsFetchDecodeExecute := by
  refine fun s => ⟨fun hrunning => ⟨fun i hi => ?_, fun src dst hbyte => ?_⟩, step_of_halted⟩
  · exact ⟨hi ▸ decodeByte_wellFormed _, step_of_decodeByte hrunning hi⟩
  · obtain ⟨rfl, rfl⟩ := fields_of_toNat_eq hbyte
    exact ⟨fun h5 => step_of_decodeByte hrunning (decodeByte_of_dst_five h5),
      fun h15 => step_of_decodeByte hrunning (decodeByte_of_dst_fifteen h15),
      fun h5 h15 hsrc => step_of_decodeByte hrunning (decodeByte_of_src_fifteen h5 h15 hsrc),
      fun h5 h15 hsrc => step_of_decodeByte hrunning (decodeByte_of_move h5 h15 hsrc)⟩

/-- Settles O4: dst 15 decodes to the command of the src nibble, and the statement's table is `commandInstr`. -/
theorem commandTable : Obligations.CommandTable := by
  intro s k hrunning hbyte
  obtain ⟨rfl, hdst⟩ := fields_of_toNat_eq (dst := 15) hbyte
  exact step_of_decodeByte hrunning (decodeByte_of_dst_fifteen hdst)

end Sys2Proof.Machine
end

section
/-! SUPPORT. The standard ALU table as numbers, one equation per operation (40_alu_rom.md R82 to R93), and the ALU value of an
instance in terms of its ROM image. -/

namespace Sys2Proof.Machine

/-! ### The operations -/

/-- Cutting a number below 16 to a nibble keeps it. -/
theorem nib_ofNat_toNat {n : Nat} (h : n < 16) : (BitVec.ofNat 4 n : Nib).toNat = n :=
  (BitVec.toNat_ofNat n 4).trans (Nat.mod_eq_of_lt h)

theorem binop_sum_low_toNat (a b : Nib) : (binop 0 a b).toNat = (a.toNat + b.toNat) % 16 := BitVec.toNat_ofNat _ 4

theorem binop_sum_high_toNat (a b : Nib) : (binop 1 a b).toNat = (a.toNat + b.toNat) / 16 := by
  have ha := a.isLt
  have hb := b.isLt
  exact nib_ofNat_toNat (by omega)

theorem binop_product_low_toNat (a b : Nib) : (binop 2 a b).toNat = a.toNat * b.toNat % 16 := BitVec.toNat_ofNat _ 4

/-- The product of two nibbles is below 256, so its high half is a nibble (R85). -/
theorem binop_product_high_toNat (a b : Nib) : (binop 3 a b).toNat = a.toNat * b.toNat / 16 := by
  have hproduct : a.toNat * b.toNat < 16 * 16 := Nat.mul_lt_mul'' a.isLt b.isLt
  exact nib_ofNat_toNat (Nat.div_lt_of_lt_mul hproduct)

theorem binop_and_toNat (a b : Nib) : (binop 4 a b).toNat = a.toNat &&& b.toNat := BitVec.toNat_and a b

theorem binop_or_toNat (a b : Nib) : (binop 5 a b).toNat = a.toNat ||| b.toNat := BitVec.toNat_or a b

theorem binop_xor_toNat (a b : Nib) : (binop 6 a b).toNat = a.toNat ^^^ b.toNat := BitVec.toNat_xor a b

/-- The operations 7 to 14 give 0 (R89). -/
theorem binop_reserved {op : Nib} (a b : Nib) (hlow : 7 ≤ op.toNat) (hhigh : op.toNat ≤ 14) : binop op a b = 0 := by
  unfold binop
  split
  case h_9 => rfl
  all_goals omega

/-- Operation 15 is the unary operation that its second operand selects (R90). -/
theorem binop_fifteen (a b : Nib) : binop 15 a b = unop b a := rfl

theorem unop_zero_toNat (a : Nib) : (unop 0 a).toNat = if a = 0 then 1 else 0 :=
  apply_ite BitVec.toNat (a = 0) 1 0

theorem unop_one_toNat (a : Nib) : (unop 1 a).toNat = 15 - a.toNat :=
  nib_ofNat_toNat (by omega)

/-- The selectors 2 to 15 give 0 (R93). -/
theorem unop_reserved {sel : Nib} (a : Nib) (h : 2 ≤ sel.toNat) : unop sel a = 0 := by
  unfold unop
  split
  · omega
  · omega
  · rfl

/-! ### The ROM -/

/-- The standard ROM at a packed key (R80, R81) is the operation applied to the operands. -/
theorem stdAluRom_read_pack (op a b : Nib) :
    stdAluRom.read (a.toNat + 16 * b.toNat + 256 * op.toNat) = (binop op a b).setWidth 8 := by
  have hkey : a.toNat + 16 * b.toNat + 256 * op.toNat < romSize := by
    have ha := a.isLt
    have hb := b.isLt
    have hop := op.isLt
    unfold romSize
    omega
  rw [stdAluRom_read _ hkey, stdAluByte_pack]

theorem stdAluRom_read_pack_toNat (op a b : Nib) :
    (stdAluRom.read (a.toNat + 16 * b.toNat + 256 * op.toNat)).toNat = (binop op a b).toNat := by
  rw [stdAluRom_read_pack, BitVec.toNat_setWidth_of_le (by decide)]

/-- The ROM of an instance holds the bytes of its image, and 0x00 past the end of it (R33, R34). -/
theorem State.romByte_of_image {c : Config} {m img : Option (List Byte)} {s : State}
    (hrom : s.aluRom = (State.construct c m img).aluRom) (k : RomKey) : s.romByte k = (img.getD []).getD k.toNat 0 := by
  rw [State.romByte, hrom, State.construct_aluRom, Memory.ofImage_read]
  exact if_pos k.isLt

/-- With the standard ROM the ALU value is the standard operation `ALUOP` on `ALUA` and `ALUB` (R95). -/
theorem State.aluValue_of_stdAluRom {s : State} (hrom : s.aluRom = stdAluRom) :
    s.aluValue = binop (s.readRole .aluop) (s.readRole .alua) (s.readRole .alub) := by
  apply BitVec.eq_of_toNat_eq
  rw [State.aluValue_toNat, State.romByte, hrom, State.aluKey_toNat, stdAluRom_read_pack_toNat]
  exact Nat.mod_eq_of_lt (BitVec.isLt _)

end Sys2Proof.Machine
end

section
/-! The statements about the standard ALU table and the ROM image (40_alu_rom.md R82 to R93, R95). -/

namespace Sys2Proof.Machine

/-- Settles O38: the ROM at a packed key is `binop`, and one equation for each of its operations. -/
theorem standardAluTable : Obligations.StandardAluTable := by
  refine ⟨by rw [stdAluImage, List.length_map, List.length_range, romSize], fun a b op r hread => ?_⟩
  obtain rfl : r = (binop op a b).toNat := hread.trans (stdAluRom_read_pack_toNat op a b)
  refine ⟨?_, ?_, ?_, ?_, ?_, ?_, ?_, fun hlow hhigh => ?_, ?_, ?_, ?_⟩
  · rintro rfl; exact binop_sum_low_toNat a b
  · rintro rfl; exact binop_sum_high_toNat a b
  · rintro rfl; exact binop_product_low_toNat a b
  · rintro rfl; exact binop_product_high_toNat a b
  · rintro rfl; exact binop_and_toNat a b
  · rintro rfl; exact binop_or_toNat a b
  · rintro rfl; exact binop_xor_toNat a b
  · rw [binop_reserved a b hlow hhigh]; rfl
  · rintro rfl rfl; exact unop_zero_toNat a
  · rintro rfl rfl; exact unop_one_toNat a
  · rintro rfl hsel; rw [binop_fifteen, unop_reserved a hsel]; rfl

/-- Settles O39: MOVALU writes the ALU value, which is the low nibble of the image's byte at the key. -/
theorem romImageDecidesAluValue : Obligations.RomImageDecidesAluValue := by
  intro c m img d s _ hrom
  have hwritten : (s.writeSlot d s.aluValue).readSlot d = s.aluValue := State.readSlot_writeSlot_self s d s.aluValue
  have hvalue : s.aluValue.toNat = ((img.getD []).getD s.aluKey.toNat 0).toNat % 16 := by
    rw [State.aluValue_toNat, State.romByte_of_image hrom]
  refine ⟨_, exec_movalu d s, ?_, ?_, ?_⟩
  · rw [hwritten, hvalue, State.aluKey_toNat]
  · rintro rfl
    rw [hwritten]
    exact BitVec.eq_of_toNat_eq hvalue
  · rintro rfl
    rw [hwritten]
    exact State.aluValue_of_stdAluRom (hrom.trans (State.construct_aluRom c m _))

end Sys2Proof.Machine
end

section
/-! SUPPORT. Which byte an instruction has, for decoding (30_encoding.md R65, R66), and what a move leaves unchanged. -/

namespace Sys2Proof

/-- The byte with two given fields, as a number (R62). -/
theorem fieldsByte_toNat (src dst : Nib) : (fieldsByte src dst).toNat = 16 * src.toNat + dst.toNat := by
  obtain ⟨hsrc, hdst⟩ := fields_fieldsByte src dst
  rw [toNat_eq_fields, hsrc, hdst]

/-- The byte of a well-formed instruction decodes to that instruction (R65). -/
theorem decodeByte_encode {i : Instr} (hi : i.wellFormed = true) : decodeByte (encode i) = i := by
  cases i with
  | ldi n =>
    obtain ⟨hsrc, hdst⟩ := fields_fieldsByte n 5
    rw [encode, decodeByte_of_dst_five hdst, hsrc]
  | movalu d =>
    obtain ⟨hsrc, hdst⟩ := fields_fieldsByte 15 d
    obtain ⟨h5, h15⟩ : d ≠ 5 ∧ d ≠ 15 := by simpa [Instr.wellFormed, isMoveDst] using hi
    rw [encode, decodeByte_of_src_fifteen (hdst.trans_ne h5) (hdst.trans_ne h15) hsrc, hdst]
  | mov d src =>
    obtain ⟨hsrc, hdst⟩ := fields_fieldsByte src d
    obtain ⟨⟨h5, h15⟩, hmove⟩ : (d ≠ 5 ∧ d ≠ 15) ∧ src ≠ 15 := by
      simpa [Instr.wellFormed, isMoveDst, isMoveSrc] using hi
    rw [encode, decodeByte_of_move (hdst.trans_ne h5) (hdst.trans_ne h15) (hsrc.trans_ne hmove), hsrc, hdst]
  | _ => decide

/-- A well-formed instruction has one byte: its encoding and no other decodes to it (R65, R66). -/
theorem decodeByte_eq_iff {i : Instr} (hi : i.wellFormed = true) {b : Byte} : decodeByte b = i ↔ b = encode i := by
  constructor
  · rintro rfl
    exact (encode_decodeByte b).symm
  · rintro rfl
    exact decodeByte_encode hi

/-- An instruction that is encoded by its two fields has the byte `16 src + dst` and no other. -/
theorem decodeByte_eq_iff_toNat {i : Instr} (hi : i.wellFormed = true) {src dst : Nib} (he : encode i = fieldsByte src dst)
    (b : Byte) : decodeByte b = i ↔ b.toNat = 16 * src.toNat + dst.toNat := by
  rw [decodeByte_eq_iff hi, he, ← fieldsByte_toNat, BitVec.toNat_inj]

end Sys2Proof

namespace Sys2Proof.Machine

theorem State.writeSlot_memorySame (s : State) (i v : Nib) : MemorySame s (s.writeSlot i v) :=
  State.writeSlot_memByte s i v

theorem State.writeSlot_restSame (s : State) (i v : Nib) : RestSame s (s.writeSlot i v) :=
  ⟨State.writeSlot_romByte s i v, rfl, rfl, rfl⟩

/-- The ALU key is the packed number of R81. -/
theorem State.aluKey_eq_ofNat (s : State) : s.aluKey = BitVec.ofNat 12 ((s.readRole .alua).toNat +
    16 * (s.readRole .alub).toNat + 256 * (s.readRole .aluop).toNat) := by
  rw [← State.aluKey_toNat, BitVec.ofNat_toNat, BitVec.setWidth_eq]

/-- With a ROM that reads 0 everywhere the ALU value is 0 (R94, R95). -/
theorem State.aluValue_of_zero_rom {s : State} (h : ∀ k, s.romByte k = 0) : s.aluValue = 0 := by
  apply BitVec.eq_of_toNat_eq
  rw [State.aluValue_toNat, h]
  rfl

end Sys2Proof.Machine
end

section
/-! The statements about the move family (41_moves.md R100, R101, R102). Each move is one `writeSlot`. -/

namespace Sys2Proof.Machine

/-- Settles O19: LDI writes slot 5, and the access table of R21 gives `IMM` no other writer. -/
theorem ldiLoadsImmediate : Obligations.LdiLoadsImmediate := by
  refine ⟨fun n => decodeByte_eq_iff_toNat (i := .ldi n) (dst := 5) rfl rfl, fun n s => ?_,
    fun i s t hi hw h hchange => ?_⟩
  · exact ⟨_, exec_ldi n s, State.readRole_writeRole_self s .imm n, State.writeSlot_regsSameBut s 5 n, rfl,
      State.writeSlot_memorySame s 5 n, State.writeSlot_restSame s 5 n⟩
  · by_contra hnot
    exact hchange (exec_readRole_of_not_writtenBy (r := .imm) hi hw h hnot)

/-- Settles O20: MOV writes one slot with what another holds, and writing back what a slot holds changes nothing. -/
theorem movCopiesRegister : Obligations.MovCopiesRegister := by
  intro d src hd hsrc
  have hwf : (Instr.mov d src).wellFormed = true := by rw [Instr.wellFormed, hd, hsrc, Bool.and_self]
  refine ⟨decodeByte_eq_iff_toNat hwf rfl, fun s => ⟨_, exec_mov d src s, State.readSlot_writeSlot_self s d _,
    State.writeSlot_regsSameBut s d _, rfl, State.writeSlot_memorySame s d _, State.writeSlot_restSame s d _, ?_⟩⟩
  rintro rfl
  exact State.writeSlot_readSlot s d

/-- Settles O21: MOVALU writes the ALU value, which the state before the write determines. -/
theorem movaluWritesRomLookup : Obligations.MovaluWritesRomLookup := by
  refine fun d hd => ⟨decodeByte_eq_iff_toNat (i := .movalu d) (src := 15) hd rfl, fun s => ?_⟩
  have hwritten : (s.writeSlot d s.aluValue).readSlot d = s.aluValue := State.readSlot_writeSlot_self s d _
  refine ⟨_, exec_movalu d s, ?_, State.writeSlot_regsSameBut s d _, rfl, State.writeSlot_memorySame s d _,
    State.writeSlot_restSame s d _, fun hzero => ?_⟩
  · rw [hwritten, State.aluValue_toNat, State.aluKey_eq_ofNat]
  · rw [hwritten, State.aluValue_of_zero_rom hzero]

end Sys2Proof.Machine
end

section
/-! SUPPORT. What the operations of the memory and address commands leave in memory and in the rest of the state, and the
values they write. -/

namespace Sys2Proof.Machine

/-! ### The rest of the state -/

theorem State.setDataByte_memorySame (s : State) (b : Byte) : MemorySame s (s.setDataByte b) :=
  State.setDataByte_memByte s b

theorem State.setDataByte_restSame (s : State) (b : Byte) : RestSame s (s.setDataByte b) :=
  ⟨State.setDataByte_romByte s b, rfl, rfl, rfl⟩

theorem State.setAr_memorySame (s : State) (v : Addr) : MemorySame s (s.setAr v) :=
  State.setAr_memByte s v

theorem State.setAr_restSame (s : State) (v : Addr) : RestSame s (s.setAr v) :=
  ⟨State.setAr_romByte s v, rfl, rfl, rfl⟩

theorem State.storeByte_regsSame (s : State) (a : Addr) (v : Byte) : RegsSameBut [] s (s.storeByte a v) :=
  regsSameBut_of_regs_eq (State.storeByte_regs s a v) []

theorem State.storeByte_restSame (s : State) (a : Addr) (v : Byte) : RestSame s (s.storeByte a v) :=
  ⟨State.storeByte_romByte s a v, rfl, rfl, rfl⟩

/-! ### The values written -/

/-- `MLO` after a byte is split is its low nibble (R121). -/
theorem State.setDataByte_mlo_toNat {s : State} (hw : s.config.wf = true) (b : Byte) :
    ((s.setDataByte b).readRole .mlo).toNat = b.toNat % 16 := by
  rw [(State.setDataByte_readRole hw b).1, extract_nibble_toNat, Nat.pow_zero, Nat.div_one]

/-- `MHI` after a byte is split is its high nibble (R121). -/
theorem State.setDataByte_mhi_toNat {s : State} (hw : s.config.wf = true) (b : Byte) :
    ((s.setDataByte b).readRole .mhi).toNat = b.toNat / 16 := by
  have hb : b.toNat < 256 := b.isLt
  rw [(State.setDataByte_readRole hw b).2, extract_nibble_toNat]
  omega

/-- A machine whose next instruction is a MEMRD splits the byte at `AR` and goes on behind it (R61, R121). -/
theorem step_memrd {s : State} (hrunning : s.halted = false) (hfetch : s.memByte s.pc = 0x0F) :
    step s = .next (s.advancePc.setDataByte (s.memByte s.ar)) := by
  have hdecode : decodeByte (s.memByte s.pc) = .memrd := (decodeByte_eq_iff rfl).mpr hfetch
  exact step_of_decodeByte hrunning hdecode

/-- An instruction that adds `d` to `AR` leaves the sum modulo 65536 there and touches nothing but the four address nibbles:
INCA and DECA are this for two values of `d` (R28, R123, R124). -/
theorem exec_of_setAr_add {i : Instr} {s : State} {d : Addr} {n : Nat} (hw : s.config.wf = true) (hd : d.toNat = n)
    (h : exec i s = .next (s.setAr (s.ar + d))) :
    ∃ t, exec i s = .next t ∧ t.ar.toNat = (s.ar.toNat + n) % 65536 ∧ RegsSameBut s.addressSlots s t ∧
      t.pc = s.pc ∧ MemorySame s t ∧ RestSame s t := by
  refine ⟨_, h, ?_, State.setAr_regsSameBut s _, State.setAr_pc s _, State.setAr_memorySame s _,
    State.setAr_restSame s _⟩
  rw [State.ar_setAr hw, BitVec.toNat_add, hd]

end Sys2Proof.Machine
end

section
/-! The statements about the memory and address commands (42_memory_commands.md R121 to R124). -/

namespace Sys2Proof.Machine

/-- Settles O22: MEMRD is one split of the byte at `AR`; where that is its own byte, the split gives 15 and 0. -/
theorem memrdLoadsByteAtAddress : Obligations.MemrdLoadsByteAtAddress := by
  refine ⟨fun b => decodeByte_eq_iff (i := .memrd) rfl, fun s hw => ?_, fun s hw hrunning hfetch har => ?_⟩
  · exact ⟨_, exec_memrd s, State.setDataByte_mlo_toNat hw _, State.setDataByte_mhi_toNat hw _,
      State.setDataByte_regsSameBut s _, State.setDataByte_ar hw _, State.setDataByte_pc s _,
      State.setDataByte_memorySame s _, State.setDataByte_restSame s _⟩
  · have hread : s.memByte s.ar = 0x0F := by rw [har, hfetch]
    obtain ⟨hlo, hhi⟩ := State.setDataByte_readRole (s := s.advancePc) hw 0x0F
    exact ⟨_, hread ▸ step_memrd hrunning hfetch, hlo, hhi⟩

/-- Settles O23: a permitted MEMWR is one store of the data byte, and a refused one is the identity. -/
theorem memwrStoresByteAtAddress : Obligations.MemwrStoresByteAtAddress := by
  refine ⟨fun b => decodeByte_eq_iff (i := .memwr) rfl, fun s hm hpermit => ?_, fun s => exec_memwr_of_refused⟩
  refine ⟨_, exec_memwr_of_permitted hpermit, ?_, fun a => State.memByte_storeByte_ne s s.dataByte,
    State.storeByte_regsSame s _ _, State.storeByte_pc s _ _, State.storeByte_restSame s _ _⟩
  rw [State.memByte_storeByte_self hm, State.dataByte_toNat]

/-- Settles O25: INCA adds 1 to `AR` and DECA 65535, and the addition of addresses wraps at 65536. -/
theorem addressStepsModulo : Obligations.AddressStepsModulo :=
  ⟨fun _ => decodeByte_eq_iff (i := .inca) rfl, fun _ => decodeByte_eq_iff (i := .deca) rfl,
    fun s hw => exec_of_setAr_add hw (by decide) (exec_inca s), fun s hw => exec_of_setAr_add hw (by decide) (exec_deca s)⟩

end Sys2Proof.Machine
end

section
/-! SUPPORT. What `pc <- target` leaves unchanged, JZ and JAL case by case, and a step in terms of the byte at `pc`. -/

namespace Sys2Proof.Machine

/-! ### Writing `pc` changes nothing else -/

theorem State.setPc_regsSame (s : State) (a : Addr) : RegsSameBut [] s (s.setPc a) :=
  regsSameBut_of_regs_eq (State.setPc_regs s a) []

theorem State.setPc_memorySame (s : State) (a : Addr) : MemorySame s (s.setPc a) :=
  State.setPc_memByte s a

theorem State.setPc_restSame (s : State) (a : Addr) : RestSame s (s.setPc a) :=
  ⟨State.setPc_romByte s a, rfl, rfl, rfl⟩

/-! ### The jumps -/

/-- JZ jumps where `CTL` is 0 (R141). -/
theorem exec_jz_of_zero {s : State} (h : s.readRole .ctl = 0) : exec .jz s = .next (s.setPc s.ar) := by
  rw [exec_jz, if_pos h]

/-- JZ does nothing where `CTL` is not 0 (R141). -/
theorem exec_jz_of_ne_zero {s : State} (h : s.readRole .ctl ≠ 0) : exec .jz s = .next s := by
  rw [exec_jz, if_neg h]

/-- In mode `LinkToAddress` JAL exchanges `pc` and `AR` (R142). -/
theorem exec_jal_of_link {s : State} (h : s.config.jalLinkMode = .linkToAddress) :
    exec .jal s = .next ((s.setPc s.ar).setAr s.pc) := by
  rw [exec_jal, if_pos h]

/-- In mode `Discard` JAL is a JMP (R142). -/
theorem exec_jal_of_discard {s : State} (h : s.config.jalLinkMode = .discard) :
    exec .jal s = .next (s.setPc s.ar) := by
  rw [exec_jal, if_neg (by simp [h])]

/-- A machine that is not halted, with the byte of `i` at `pc`, executes `i` with `pc` already incremented (R60, R61). -/
theorem step_of_memByte_eq_encode {s : State} {i : Instr} (hi : i.wellFormed = true) (hrunning : s.halted = false)
    (hfetch : s.memByte s.pc = encode i) : step s = exec i s.advancePc :=
  step_of_decodeByte hrunning ((decodeByte_eq_iff hi).mpr hfetch)

/-- A machine whose next instruction is a JMP goes on at `AR`, whatever the incremented `pc` was (R140). -/
theorem step_jmp {s : State} (hrunning : s.halted = false) (hfetch : s.memByte s.pc = 0x4F) :
    step s = .next (s.setPc s.ar) :=
  step_of_memByte_eq_encode (i := .jmp) rfl hrunning hfetch

end Sys2Proof.Machine
end

section
/-! The statements about the control-transfer commands (43_control_commands.md R140 to R142). -/

namespace Sys2Proof.Machine

/-- Settles O27: JMP is one `setPc`, and a step of it overwrites the incremented `pc` with `AR`. -/
theorem jmpGoesToAddress : Obligations.JmpGoesToAddress := by
  refine ⟨fun _ => decodeByte_eq_iff (i := .jmp) rfl, fun s => ?_, fun s hrunning hfetch => ⟨fun har => ?_, fun har => ?_⟩⟩
  · exact ⟨_, exec_jmp s, State.setPc_pc s _, State.setPc_regsSame s _, State.setPc_memorySame s _,
      State.setPc_restSame s _⟩
  · rw [step_jmp hrunning hfetch, har]
    rfl
  · rw [step_jmp hrunning hfetch, har]
    rfl

/-- Settles O28: by the two cases of `CTL`, JZ is the JMP to `AR` or the identity. -/
theorem jzJumpsIfControlIsZero : Obligations.JzJumpsIfControlIsZero := by
  refine ⟨fun _ => decodeByte_eq_iff (i := .jz) rfl, fun s => ?_, fun s hrunning hfetch hctl => ?_⟩
  · by_cases hctl : s.readRole .ctl = 0
    · exact ⟨_, exec_jz_of_zero hctl, fun _ => State.setPc_pc s _, fun hne => absurd hctl hne,
        State.setPc_regsSame s _, State.setPc_memorySame s _, State.setPc_restSame s _⟩
    · exact ⟨s, exec_jz_of_ne_zero hctl, fun hzero => absurd hzero hctl, fun _ => rfl,
        regsSameBut_of_regs_eq rfl [], fun _ => rfl, fun _ => rfl, rfl, rfl, rfl⟩
  · have hstep : step s = exec .jz s.advancePc := step_of_memByte_eq_encode rfl hrunning hfetch
    exact hstep.trans (exec_jz_of_ne_zero (s := s.advancePc) hctl)

/-- Settles O29: the link that JAL puts into `AR` is the `pc` that the fetch has incremented, modulo 65536. -/
theorem jalLinksThroughAddress : Obligations.JalLinksThroughAddress := by
  refine ⟨fun _ => decodeByte_eq_iff (i := .jal) rfl, fun s hw hlink => ?_, fun s hdiscard => ?_,
    fun s hw hrunning hfetch => ?_⟩
  · exact ⟨_, exec_jal_of_link hlink, rfl, State.ar_setAr (s := s.setPc s.ar) hw s.pc,
      State.setAr_regsSameBut (s.setPc s.ar) _, State.setAr_memorySame (s.setPc s.ar) _,
      State.setAr_restSame (s.setPc s.ar) _⟩
  · exact ⟨_, exec_jal_of_discard hdiscard, State.setPc_pc s _, State.setPc_regsSame s _, State.setPc_memorySame s _,
      State.setPc_restSame s _⟩
  · have hstep : step s = exec .jal s.advancePc := step_of_memByte_eq_encode rfl hrunning hfetch
    cases hmode : s.config.jalLinkMode with
    | linkToAddress =>
      have hlink : ((s.advancePc.setPc s.ar).setAr (s.pc + 1)).ar = s.pc + 1 :=
        State.ar_setAr (s := s.advancePc.setPc s.ar) hw _
      refine ⟨_, hstep.trans (exec_jal_of_link (s := s.advancePc) hmode), rfl, fun _ => ?_, nofun⟩
      exact (congrArg BitVec.toNat hlink).trans (BitVec.toNat_add s.pc 1)
    | discard =>
      exact ⟨_, hstep.trans (exec_jal_of_discard (s := s.advancePc) hmode), rfl, nofun,
        fun _ => State.setPc_ar s.advancePc _⟩

end Sys2Proof.Machine
end

section
/-! SUPPORT. The reserved commands as one case, the memory bytes of a dump by address, and which states have a step. -/

namespace Sys2Proof.Machine

/-! ### The reserved commands -/

/-- The seven commands to which R160 gives no effect. -/
def reservedCommands : List Instr := [.cmd7, .cmd8, .cmd9, .cmd10, .cmd11, .cmd12, .cmd13]

/-- They are the commands 7 to 13 of the table (R64, R160). -/
theorem commandInstr_mem_reservedCommands :
    ∀ k : Nib, 7 ≤ k.toNat → k.toNat ≤ 13 → commandInstr k ∈ reservedCommands := by decide

/-- Every reserved command is the identity on the state that the fetch leaves (R160). -/
theorem exec_of_mem_reservedCommands {i : Instr} (hi : i ∈ reservedCommands) (s : State) : exec i s = .next s := by
  simp only [reservedCommands, List.mem_cons, List.not_mem_nil, or_false] at hi
  rcases hi with rfl | rfl | rfl | rfl | rfl | rfl | rfl <;> rfl

/-! ### The memory bytes of a dump -/

theorem Memory.length_bytes (size : Nat) (m : Memory) : (m.bytes size).length = size := by
  rw [Memory.bytes, List.length_map, List.length_range]

/-- The bytes are in index order: each stands at its own address (R36). -/
theorem Memory.getElem?_bytes {size a : Nat} (m : Memory) (ha : a < size) : (m.bytes size)[a]? = some (m.read a) := by
  rw [Memory.bytes, List.getElem?_map, List.getElem?_range ha, Option.map_some]

/-! ### States with a step -/

/-- A state has a step exactly if it is not halted (R31). -/
theorem State.safe_iff (s : State) : s.Safe ↔ s.halted = false :=
  ⟨fun ⟨_, hstep⟩ => (step_eq_next_iff.mp hstep).1, everyInstructionCompletes.2 s⟩

/-- A state has no step exactly if it is halted (R31, R163). -/
theorem State.not_safe_iff (s : State) : ¬ s.Safe ↔ s.halted = true := by
  rw [State.safe_iff, Bool.not_eq_false]

end Sys2Proof.Machine
end

section
/-! The statements about the reserved, break and halt commands (44_system_commands.md R160 to R163). -/

namespace Sys2Proof.Machine

/-- Settles O33: the dump is of the state HALT runs in, and the Halt event lists its memory by address. -/
theorem haltEmitsDumpAndStops : Obligations.HaltEmitsDumpAndStops := by
  refine ⟨fun _ => decodeByte_eq_iff (i := .halt) rfl, fun s => ?_⟩
  exact ⟨s.dumpRegs, s.mem, _, State.dumpRegs_get s, Memory.length_bytes memSize s.mem,
    fun a => Memory.getElem?_bytes s.mem a.isLt, rfl, exec_halt s, step_of_halted rfl⟩

/-- Settles O34: a state has no step exactly if it is halted, and only a HALT makes a running machine halted. Every step is
like this, so the run that leads to it adds nothing. -/
theorem runEndsExactlyAtHalt : Obligations.RunEndsExactlyAtHalt := by
  intro _ t u _ _ hstep
  obtain ⟨-, halted_iff_ran_halt, -, -⟩ := haltedIsSetByHaltOnlyAndFinal
  exact ⟨u.not_safe_iff, halted_iff_ran_halt t u hstep⟩

/-- Settles O31: the bytes with dst 15 and src 7 to 13 decode to the reserved commands, and each of those is the identity. -/
theorem reservedCommandsAreNoOps : Obligations.ReservedCommandsAreNoOps := by
  refine ⟨fun s i hi => exec_of_mem_reservedCommands hi s, fun s k hlow hhigh hrunning hbyte => ?_⟩
  obtain ⟨src, rfl⟩ : ∃ src : Nib, src.toNat = k := ⟨BitVec.ofNat 4 k, nib_ofNat_toNat (by omega)⟩
  have hreserved : commandInstr src ∈ reservedCommands := commandInstr_mem_reservedCommands src hlow hhigh
  exact (commandTable s src hrunning hbyte).trans (exec_of_mem_reservedCommands hreserved s.advancePc)

/-- Settles O32: BRK is one `emit` of the register dump, and in a step it runs with `pc` already incremented. -/
theorem brkEmitsBreakAndContinues : Obligations.BrkEmitsBreakAndContinues := by
  refine ⟨fun _ => decodeByte_eq_iff (i := .brk) rfl, fun s => ?_, fun s hrunning hfetch => ?_⟩
  · exact ⟨s.dumpRegs, State.dumpRegs_get s, exec_brk s⟩
  · have hstep : step s = exec .brk s.advancePc := step_of_memByte_eq_encode rfl hrunning hfetch
    exact ⟨s.dumpRegs, State.dumpRegs_get s, hstep.trans (exec_brk s.advancePc)⟩

end Sys2Proof.Machine
end

section
/-! SUPPORT. The events one instruction emits, and the step relation in terms of `step` (60_exceptions.md R182). -/

namespace Sys2Proof.Machine

/-- The events `i` emits when it runs in `s`: the Break of a BRK, the Halt of a HALT, and none for any other (R161, R162). -/
def emittedEvents (i : Instr) (s : State) : List Event :=
  if i = .brk then [.brk s.pc s.dumpRegs] else if i = .halt then [.halt s.pc s.dumpRegs s.mem] else []

theorem emittedEvents_cases (i : Instr) (s : State) :
    (emittedEvents i s = [] ∧ i ≠ .brk ∧ i ≠ .halt) ∨ (emittedEvents i s = [.brk s.pc s.dumpRegs] ∧ i = .brk) ∨
    (emittedEvents i s = [.halt s.pc s.dumpRegs s.mem] ∧ i = .halt) := by
  unfold emittedEvents
  split
  case isTrue hbrk => exact .inr (.inl ⟨rfl, hbrk⟩)
  case isFalse hbrk =>
    split
    case isTrue hhalt => exact .inr (.inr ⟨rfl, hhalt⟩)
    case isFalse hhalt => exact .inl ⟨rfl, hbrk, hhalt⟩

/-- A step appends to the log what the fetched instruction emits, run with `pc` already incremented. -/
theorem step_events {s t : State} (h : step s = .next t) :
    t.events = s.events ++ emittedEvents (decodeByte (s.memByte s.pc)) s.advancePc :=
  (exec_frame (step_eq_next_iff.mp h).2).events

theorem stepRelation_of_step {s t : State} (h : step s = .next t) :
    stepRelation s = some (t, emittedEvents (decodeByte (s.memByte s.pc)) s.advancePc) := by
  simp only [stepRelation, h, step_events h, List.drop_left]

/-- The step relation is undefined exactly where no step exists (R36, R31). -/
theorem stepRelation_eq_none_iff (s : State) : stepRelation s = none ↔ s.halted = true := by
  cases hhalted : s.halted with
  | true => simp [stepRelation, step_of_halted hhalted]
  | false =>
    obtain ⟨t, hstep⟩ := s.safe_iff.mpr hhalted
    simp [stepRelation_of_step hstep]

/-- Where it is defined, it gives the next state and what the fetched instruction emits. -/
theorem stepRelation_eq_some {s t : State} {es : List Event} (h : stepRelation s = some (t, es)) :
    step s = .next t ∧ es = emittedEvents (decodeByte (s.memByte s.pc)) s.advancePc := by
  have hrunning : s.halted = false := by
    rw [← Bool.not_eq_true, ← stepRelation_eq_none_iff, h]
    exact Option.some_ne_none _
  obtain ⟨u, hstep⟩ := s.safe_iff.mpr hrunning
  obtain ⟨rfl, rfl⟩ : u = t ∧ _ = es := by simpa [stepRelation_of_step hstep] using h
  exact ⟨hstep, rfl⟩

end Sys2Proof.Machine
end

section
/-! The statement about the events of a step (60_exceptions.md R182). -/

namespace Sys2Proof.Machine

/-- Settles O7: the step relation's events are those the fetched instruction emits, by the three cases of `emittedEvents`. -/
theorem stepEmitsAtMostOneEvent : Obligations.StepEmitsAtMostOneEvent := by
  refine fun s => ⟨stepRelation_eq_none_iff s, fun t es hrel => ?_⟩
  obtain ⟨hstep, rfl⟩ := stepRelation_eq_some hrel
  exact ⟨hstep, step_events hstep, emittedEvents_cases _ s.advancePc⟩

end Sys2Proof.Machine
end

section
/-! SUPPORT. Which bytes an image puts into memory, and a step and a run through zero bytes (70_reset_and_hazards.md R204). -/

namespace Sys2Proof.Machine

/-- From the size of the array on an image is cut off (R33). -/
theorem Memory.ofImage_read_of_size_le {size n : Nat} (img : Option (List Byte)) (h : size ≤ n) :
    (Memory.ofImage size img).read n = 0 :=
  (Memory.ofImage_read size img n).trans (if_neg (Nat.not_lt.mpr h))

/-- Memory after construction holds the bytes of the program image, and 0x00 past the end of it (R32, R33). -/
theorem State.construct_memByte (c : Config) (m a : Option (List Byte)) (i : Addr) :
    (State.construct c m a).memByte i = (m.getD []).getD i.toNat 0 :=
  (Memory.ofImage_read memSize m i.toNat).trans (if_pos i.isLt)

/-- An image without a nonzero byte leaves all of memory at 0x00, whatever its length. -/
theorem State.construct_memByte_of_zero_image {m : Option (List Byte)} (hzero : ∀ b ∈ m.getD [], b = 0) (c : Config)
    (a : Option (List Byte)) (i : Addr) : (State.construct c m a).memByte i = 0 := by
  rw [State.construct_memByte]
  by_cases hi : i.toNat < (m.getD []).length
  · rw [← List.getElem_eq_getD (h := hi) 0]
    exact hzero _ (List.getElem_mem hi)
  · exact List.getD_eq_default _ _ (Nat.not_lt.mp hi)

/-- The byte 0x00 is `MOV x0, x0`, so a step of it only increments `pc` (R101, R204). -/
theorem step_of_zero_byte {s : State} (hrunning : s.halted = false) (hfetch : s.memByte s.pc = 0) :
    step s = .next s.advancePc := by
  rw [step_of_memByte_eq_encode (i := .mov 0 0) rfl hrunning hfetch, exec_mov, State.writeSlot_readSlot]

/-- A run through zero bytes only adds its length to `pc`, modulo 65536 (R204): each step leaves one byte less to go. -/
theorem run_of_zero_bytes (n : Nat) {s : State} (hrunning : s.halted = false)
    (hzero : ∀ k < n, s.memByte (s.pc + BitVec.ofNat 16 k) = 0) :
    Host.Core.run Sys2Proof.core n s = .next (s.setPc (s.pc + BitVec.ofNat 16 n)) := by
  induction n generalizing s with
  | zero => rw [BitVec.add_zero]; rfl
  | succ n ih =>
    have hpc (k : Nat) : s.pc + 1 + BitVec.ofNat 16 k = s.pc + BitVec.ofNat 16 (k + 1) := by
      rw [BitVec.add_assoc, BitVec.add_comm 1, BitVec.ofNat_add]
      rfl
    have hfetch : s.memByte s.pc = 0 := by simpa using hzero 0 n.succ_pos
    have hrest : ∀ k < n, s.advancePc.memByte (s.advancePc.pc + BitVec.ofNat 16 k) = 0 := fun k hk => by
      rw [State.advancePc_pc, hpc]
      exact hzero (k + 1) (Nat.succ_lt_succ hk)
    rw [run_succ_of_step (step_of_zero_byte hrunning hfetch), ih (s := s.advancePc) hrunning hrest, State.advancePc_pc, hpc]
    rfl

end Sys2Proof.Machine
end

section
/-! The statements about construction, the entry point and a memory of zero bytes (70_reset_and_hazards.md R201, R202, R204). -/

namespace Sys2Proof.Machine

/-- Settles O8: the fields as `State.construct` gives them, and both arrays as R33 normalises their images. -/
theorem constructionSetsEveryElement : Obligations.ConstructionSetsEveryElement := by
  refine fun c m a => ⟨fun i => ?_, State.construct_pc c m a, State.construct_halted c m a, State.construct_events c m a,
    State.construct_config c m a, State.construct_memByte c m a, fun k => State.romByte_of_image rfl k,
    fun n => Memory.ofImage_read_of_size_le m, fun n => Memory.ofImage_read_of_size_le a⟩
  rw [State.readSlot, State.construct_regs, Slots.get_replicate]

/-- Settles O41: a run through zero bytes, from any state and from construction, where every byte is zero. -/
theorem zeroMemoryRunsForever : Obligations.ZeroMemoryRunsForever := by
  refine ⟨fun n s hrunning hzero => run_of_zero_bytes n hrunning hzero, fun c m a n hzero => ?_⟩
  have hrun := run_of_zero_bytes n (State.construct_halted c m a) fun k _ =>
    State.construct_memByte_of_zero_image hzero c a _
  have hpc : (State.construct c m a).pc + BitVec.ofNat 16 n = BitVec.ofNat 16 n := BitVec.zero_add _
  rw [hpc] at hrun
  exact hrun

/-- Settles O10: construction leaves `pc` at 0 and not halted, so the first step decodes the image's byte 0. -/
theorem entryPointIsAddressZero : Obligations.EntryPointIsAddressZero := by
  intro c m a
  have hfetch : (State.construct c m a).memByte (State.construct c m a).pc = (m.getD []).getD 0 0 :=
    State.construct_memByte c m a 0
  exact step_of_decodeByte (State.construct_halted c m a) (congrArg decodeByte hfetch)

end Sys2Proof.Machine
end

section
/-! The statements about decoding and encoding (30_encoding.md, sections 1, 2 and 4; 95_test_vectors.md section 2.1). -/

namespace Sys2Proof

/-- Settles O1: `decodeByte_encode` on the instructions, `encode_decodeByte` on the bytes; the list decoder takes one byte. -/
theorem decodeEncodeAgree : Obligations.DecodeEncodeAgree :=
  ⟨fun _ => decodeByte_encode, fun b => ⟨decodeByte_wellFormed b, encode_decodeByte b⟩, fun _ _ => rfl, rfl⟩

/-- Settles O2: ten fixed bytes, decoded by evaluation. -/
theorem specWordsDecode : Obligations.SpecWordsDecode := by
  unfold Obligations.SpecWordsDecode
  decide

end Sys2Proof
end

section
/-! SUPPORT. The invariant of a run under the operations that hand over an event, and under every instruction. -/

namespace Sys2Proof.Machine

/-- The dump a state hands over makes a well-formed Break (R36, R161). -/
theorem State.Inv.brk_wf {s : State} (h : s.Inv) : (Event.brk s.pc s.dumpRegs).wf = true :=
  (Bool.and_true _).trans (State.dumpRegs_wf h.slotFifteen)

/-- The dump and the memory a state hands over make a well-formed Halt (R36, R162). -/
theorem State.Inv.halt_wf {s : State} (h : s.Inv) : (Event.halt s.pc s.dumpRegs s.mem).wf = true :=
  Bool.and_eq_true_iff.mpr ⟨State.dumpRegs_wf h.slotFifteen, h.memWf⟩

/-- A well-formed event keeps the log well-formed. -/
theorem State.Inv.emit_eventsWf {s : State} (h : s.Inv) {e : Event} (he : e.wf = true) :
    (s.emit e).events.all Event.wf = true := by
  rw [State.emit_events, List.all_append, h.eventsWf]
  simp [he]

/-- Handing over a Break keeps the invariant: it is no Halt event (R161). -/
theorem State.Inv.emitBrk {s : State} (h : s.Inv) : (s.emit (.brk s.pc s.dumpRegs)).Inv where
  configWf := h.configWf
  memWf := h.memWf
  romWf := h.romWf
  slotFifteen := h.slotFifteen
  eventsWf := h.emit_eventsWf h.brk_wf
  haltEvents := by
    rw [State.emit_events, List.countP_append, h.haltEvents]
    rfl

/-- Handing over a Halt and setting `halted` keeps the invariant of a machine that was running: the Halt is its first (R162). -/
theorem State.Inv.emitHalt {s : State} (h : s.Inv) (hrunning : s.halted = false) :
    (s.emit (.halt s.pc s.dumpRegs s.mem)).setHalted.Inv where
  configWf := h.configWf
  memWf := h.memWf
  romWf := h.romWf
  slotFifteen := h.slotFifteen
  eventsWf := h.emit_eventsWf h.halt_wf
  haltEvents := by
    rw [State.setHalted_events, State.emit_events, List.countP_append, h.haltEvents, hrunning]
    rfl

/-- No well-formed move writes slot 15 (R65). -/
theorem ne_fifteen_of_isMoveDst {d : Nib} (h : isMoveDst d = true) : d ≠ 15 := by
  rintro rfl
  exact absurd h (by decide)

/-- Every well-formed instruction keeps the invariant of a running machine. -/
theorem exec_keeps_inv {i : Instr} {s t : State} (hi : i.wellFormed = true) (hs : s.Inv) (hrunning : s.halted = false)
    (h : exec i s = .next t) : t.Inv := by
  cases i with
  | ldi n => cases h; exact hs.writeRole n (r := .imm) (by decide)
  | movalu d => cases h; exact hs.writeSlot _ (ne_fifteen_of_isMoveDst hi)
  | mov d src => cases h; exact hs.writeSlot _ (ne_fifteen_of_isMoveDst (Bool.and_eq_true_iff.mp hi).1)
  | memrd => cases h; exact hs.setDataByte _
  | memwr =>
    cases h
    split
    · exact hs.storeByte _ _
    · exact hs
  | inca | deca => cases h; exact hs.setAr _
  | jmp => cases h; exact hs.setPc _
  | jz =>
    rw [exec_jz] at h
    cases h
    split
    · exact hs.setPc _
    · exact hs
  | jal =>
    rw [exec_jal] at h
    cases h
    split
    · exact (hs.setPc _).setAr _
    · exact hs.setPc _
  | brk => cases h; exact hs.emitBrk
  | halt => cases h; exact hs.emitHalt hrunning
  | cmd7 | cmd8 | cmd9 | cmd10 | cmd11 | cmd12 | cmd13 => cases h; exact hs

end Sys2Proof.Machine
end

section
/-! The statements about reset and the invariant of a run (70_reset_and_hazards.md section 1; 10_state.md). -/

namespace Sys2Proof.Machine

/-- Settles O12: a step executes a well-formed instruction, as every byte decodes to one, in a machine that is running. -/
theorem everyStepKeepsInvariant : Obligations.EveryStepKeepsInvariant := by
  intro s t hs h
  obtain ⟨hrunning, hexec⟩ := step_eq_next_iff.mp h
  exact exec_keeps_inv (s := s.advancePc) (decodeByte_wellFormed _) (hs.setPc _) hrunning hexec

/-- Construction with admissible parameters meets the invariant, whatever the images (R33, R201). -/
theorem State.construct_inv {c : Config} (hc : c.wf = true) (m a : Option (List Byte)) : (State.construct c m a).Inv where
  configWf := hc
  memWf := Memory.ofImage_wf memSize m
  romWf := Memory.ofImage_wf romSize a
  slotFifteen := rfl
  eventsWf := rfl
  haltEvents := rfl

/-- Settles O11: `State.reset` is construction with the admissible parameters `resetConfig`. -/
theorem constructionMeetsInvariant : Obligations.ConstructionMeetsInvariant :=
  ⟨fun _ m a hc => State.construct_inv hc m a, State.construct_inv resetConfig_wf resetMemImage resetAluImage⟩

/-- Settles O9: `State.reset` is construction with no image, and what is past the end of an image is 0x00. -/
theorem resetIsAllZero : Obligations.ResetIsAllZero := by
  obtain ⟨hslot, hpc, hrunning, hevents, -, hmem, hrom, -, -⟩ :=
    constructionSetsEveryElement resetConfig resetMemImage resetAluImage
  obtain ⟨-, har, -⟩ := addressRegisterRoundTrip
  exact ⟨fun r => hslot _, hpc, har resetConfig resetMemImage resetAluImage, hrunning, hmem, hrom, hevents⟩

end Sys2Proof.Machine
end

section
/-! SUPPORT. Storing the data byte and splitting it again, the jump back from a JAL, and the standard ALU table at operands
that are given as numbers. -/

namespace Sys2Proof.Machine

/-! ### The data byte -/

@[simp] theorem State.writeRole_readRole (s : State) (r : Role) : s.writeRole r (s.readRole r) = s :=
  State.writeSlot_readSlot s (s.slotOf r)

/-- The two nibbles of the data byte are `MLO` and `MHI` (R44). -/
theorem State.dataByte_nibbles (s : State) :
    s.dataByte.extractLsb' 0 4 = s.readRole .mlo ∧ s.dataByte.extractLsb' 4 4 = s.readRole .mhi := by
  have hlo : (s.readRole .mlo).toNat < 16 := (s.readRole .mlo).isLt
  have hhi : (s.readRole .mhi).toNat < 16 := (s.readRole .mhi).isLt
  constructor <;> apply BitVec.eq_of_toNat_eq <;> rw [extract_nibble_toNat, State.dataByte_toNat] <;> omega

/-- Splitting the data byte that is there already changes nothing. -/
theorem State.setDataByte_dataByte (s : State) : s.setDataByte s.dataByte = s := by
  obtain ⟨hlo, hhi⟩ := s.dataByte_nibbles
  rw [State.setDataByte, hlo, hhi, State.writeRole_readRole, State.writeRole_readRole]

/-- A MEMRD at the address that was just stored to reads the data byte back and changes nothing. -/
theorem exec_memrd_of_stored {s : State} (hm : s.mem.wf memSize = true) :
    exec .memrd (s.storeByte s.ar s.dataByte) = .next (s.storeByte s.ar s.dataByte) := by
  have hread : (s.storeByte s.ar s.dataByte).memByte (s.storeByte s.ar s.dataByte).ar =
      (s.storeByte s.ar s.dataByte).dataByte := State.memByte_storeByte_self hm s.ar s.dataByte
  rw [exec_memrd, hread, State.setDataByte_dataByte]

/-! ### The link of a JAL -/

/-- A step of a linking JAL leaves the address of the byte behind it in `AR` (R142). -/
theorem step_jal_ar {s t : State} (hw : s.config.wf = true) (hlink : s.config.jalLinkMode = .linkToAddress)
    (hfetch : s.memByte s.pc = 0x6F) (h : step s = .next t) : t.ar = s.pc + 1 := by
  obtain ⟨hrunning, -⟩ := step_eq_next_iff.mp h
  have hstep : step s = exec .jal s.advancePc := step_of_memByte_eq_encode rfl hrunning hfetch
  rw [hstep, exec_jal_of_link (s := s.advancePc) hlink] at h
  cases h
  exact State.ar_setAr (s := s.advancePc.setPc s.ar) hw (s.pc + 1)

/-- A step of a JMP to its own address changes nothing (R140). -/
theorem step_jmp_to_itself {s : State} (hrunning : s.halted = false) (hfetch : s.memByte s.pc = 0x4F) (har : s.ar = s.pc) :
    step s = .next s := by
  rw [step_jmp hrunning hfetch, har]
  rfl

/-! ### The standard table at numbers -/

/-- What the standard ROM reads as for operands below 16 (R80). -/
theorem stdAluRom_read_toNat (op : Nib) {a b : Nat} (ha : a < 16) (hb : b < 16) :
    (stdAluRom.read (a + 16 * b + 256 * op.toNat)).toNat = (binop op (BitVec.ofNat 4 a) (BitVec.ofNat 4 b)).toNat := by
  rw [← stdAluRom_read_pack_toNat, nib_ofNat_toNat ha, nib_ofNat_toNat hb]

section
variable {a b : Nat} (ha : a < 16) (hb : b < 16)
include ha hb

theorem stdAluRom_sum_low : (stdAluRom.read (a + 16 * b + 256 * 0)).toNat = (a + b) % 16 := by
  refine (stdAluRom_read_toNat 0 ha hb).trans ?_
  rw [binop_sum_low_toNat, nib_ofNat_toNat ha, nib_ofNat_toNat hb]

theorem stdAluRom_sum_high : (stdAluRom.read (a + 16 * b + 256 * 1)).toNat = (a + b) / 16 := by
  refine (stdAluRom_read_toNat 1 ha hb).trans ?_
  rw [binop_sum_high_toNat, nib_ofNat_toNat ha, nib_ofNat_toNat hb]

theorem stdAluRom_product_low : (stdAluRom.read (a + 16 * b + 256 * 2)).toNat = a * b % 16 := by
  refine (stdAluRom_read_toNat 2 ha hb).trans ?_
  rw [binop_product_low_toNat, nib_ofNat_toNat ha, nib_ofNat_toNat hb]

theorem stdAluRom_product_high : (stdAluRom.read (a + 16 * b + 256 * 3)).toNat = a * b / 16 := by
  refine (stdAluRom_read_toNat 3 ha hb).trans ?_
  rw [binop_product_high_toNat, nib_ofNat_toNat ha, nib_ofNat_toNat hb]

end

/-- The complement is operation 15 with the selector 1 (R92). -/
theorem stdAluRom_complement {a : Nat} (ha : a < 16) : (stdAluRom.read (a + 16 * 1 + 256 * 15)).toNat = 15 - a := by
  refine ((stdAluRom_read_toNat 15 ha (by decide)).trans (unop_one_toNat _)).trans ?_
  rw [nib_ofNat_toNat ha]

end Sys2Proof.Machine
end

section
/-! The statements about a store that is read back, the return from a JAL, a JMP to itself, and arithmetic through the
standard table (42_memory_commands.md; 43_control_commands.md; 70_reset_and_hazards.md section 5; 40_alu_rom.md section 3). -/

namespace Sys2Proof.Machine

/-- Settles O26: the MEMRD splits the data byte that the MEMWR stored, which is in `MLO` and `MHI` already. -/
theorem storeThenLoadRestoresRegisters : Obligations.StoreThenLoadRestoresRegisters := fun s _ hm hpermit =>
  ⟨_, _, exec_memwr_of_permitted hpermit, exec_memrd_of_stored hm, State.storeByte_regsSame s _ _, fun _ => rfl⟩

/-- Settles O30: the JAL leaves its own address + 1 in `AR`, and the JMP goes where `AR` says. -/
theorem jmpReturnsFromJal : Obligations.JmpReturnsFromJal := by
  intro s t u hw hlink hjal hstep hrunning hjmp har
  refine ⟨_, step_jmp hrunning hjmp, ?_⟩
  rw [State.setPc_pc, har, step_jal_ar hw hlink hjal hstep]

/-- Settles O42, by induction on the number of steps: each leaves the same state. -/
theorem jmpToItselfHangs : Obligations.JmpToItselfHangs := by
  intro n s hrunning hfetch har
  induction n with
  | zero => rfl
  | succ n ih => rw [run_succ_of_step (step_jmp_to_itself hrunning hfetch har), ih]

/-- Settles O40: the lookups are sums, products and the complement 15 - B, so A - B is A + (15 - B) + 1 modulo 16. -/
theorem standardAluFacts : Obligations.StandardAluFacts := by
  intro f hf a b ha hb
  have hsum {x y : Nat} (hx : x < 16) (hy : y < 16) : f 0 x y = (x + y) % 16 := (hf 0 x y).trans (stdAluRom_sum_low hx hy)
  have hcarry : f 1 a b = (a + b) / 16 := (hf 1 a b).trans (stdAluRom_sum_high ha hb)
  have hlow : f 2 a b = a * b % 16 := (hf 2 a b).trans (stdAluRom_product_low ha hb)
  have hhigh : f 3 a b = a * b / 16 := (hf 3 a b).trans (stdAluRom_product_high ha hb)
  have hcomplement : f 15 b 1 = 15 - b := (hf 15 b 1).trans (stdAluRom_complement hb)
  refine ⟨?_, ?_, ?_, hsum ha (by decide), ?_⟩
  · rw [hcarry, hsum ha hb, Nat.div_add_mod']
  · rw [hhigh, hlow, Nat.div_add_mod']
  · have hneg : f 0 (15 - b) 1 = (15 - b + 1) % 16 := hsum (by omega) (by decide)
    rw [hcomplement, hneg, hsum ha (Nat.mod_lt _ (by decide))]
    omega
  · rw [hsum ha ha, Nat.two_mul]

end Sys2Proof.Machine
end

section
/-! SUPPORT. Operands in terms of the roles they are read from (R27, R44, R81), and two writes to one register file. -/

namespace Sys2Proof.Machine

/-! ### Operands by roles -/

/-- The four roles `AR` is gathered from (R27). -/
def addressRoles : List Role := [.ad0, .ad1, .ad2, .ad3]

theorem State.ar_congr {s t : State} (h : ∀ r ∈ addressRoles, t.readRole r = s.readRole r) : t.ar = s.ar := by
  rw [State.ar, State.ar, h .ad0 (by decide), h .ad1 (by decide), h .ad2 (by decide), h .ad3 (by decide)]

theorem State.dataByte_congr {s t : State} (hlo : t.readRole .mlo = s.readRole .mlo)
    (hhi : t.readRole .mhi = s.readRole .mhi) : t.dataByte = s.dataByte := by
  rw [State.dataByte, State.dataByte, hlo, hhi]

theorem State.aluValue_congr {s t : State} (ha : t.readRole .alua = s.readRole .alua)
    (hb : t.readRole .alub = s.readRole .alub) (hop : t.readRole .aluop = s.readRole .aluop)
    (hrom : t.aluRom = s.aluRom) : t.aluValue = s.aluValue := by
  have hkey : t.aluKey = s.aluKey := by rw [State.aluKey, State.aluKey, ha, hb, hop]
  rw [State.aluValue, State.aluValue, State.romByte, State.romByte, hkey, hrom]

/-! ### Two writes -/

/-- The later of two writes to one index wins. -/
theorem Slots.set_set_self {α : Type} (r : Slots α) (i : Nib) (v w : α) : (r.set i v).set i w = r.set i w := by
  refine Slots.ext_get fun j => ?_
  by_cases hj : j = i
  · rw [hj, Slots.get_set_self, Slots.get_set_self]
  · rw [Slots.get_set_ne _ _ hj, Slots.get_set_ne _ _ hj, Slots.get_set_ne _ _ hj]

/-- Writes to different indices commute. -/
theorem Slots.set_set_comm {α : Type} (r : Slots α) {i j : Nib} (v w : α) (h : i ≠ j) :
    (r.set i v).set j w = (r.set j w).set i v := by
  refine Slots.ext_get fun k => ?_
  by_cases hj : k = j
  · subst hj
    rw [Slots.get_set_self, Slots.get_set_ne _ _ h.symm, Slots.get_set_self]
  · rw [Slots.get_set_ne _ _ hj]
    by_cases hi : k = i
    · rw [hi, Slots.get_set_self, Slots.get_set_self]
    · rw [Slots.get_set_ne _ _ hi, Slots.get_set_ne _ _ hi, Slots.get_set_ne _ _ hj]

theorem State.writeSlot_writeSlot_self (s : State) (i v w : Nib) : (s.writeSlot i v).writeSlot i w = s.writeSlot i w :=
  congrArg (fun regs => { s with regs := regs }) (Slots.set_set_self s.regs i v w)

theorem State.writeSlot_comm (s : State) {i j : Nib} (v w : Nib) (h : i ≠ j) :
    (s.writeSlot i v).writeSlot j w = (s.writeSlot j w).writeSlot i v :=
  congrArg (fun regs => { s with regs := regs }) (Slots.set_set_comm s.regs v w h)

end Sys2Proof.Machine
end

section
/-! SUPPORT. The "read by" column of R21, and what another value in a register that an instruction does not read leads to. -/

namespace Sys2Proof.Machine

/-! ### Who reads a role -/

/-- A well-formed MOV out of a role's slot is one the access table lists, since `ALUR` is no MOV source (R21, R65). -/
theorem MovesFrom.readBy {c : Config} {i : Instr} {r : Role} (hi : i.wellFormed = true)
    (h : MovesFrom i (c.regMap.index r)) : ReadBy c i r := by
  cases r with
  | alur => obtain ⟨d, rfl⟩ := h; simp [Instr.wellFormed, isMoveSrc, RegMap.index] at hi
  | _ => exact .inl h

/-- The instructions that hand over a dump read every role. -/
theorem Dumps.readBy {c : Config} {i : Instr} (h : Dumps i) (r : Role) : ReadBy c i r := by
  cases r with
  | alur => exact h
  | imm | gp0 | gp1 | gp2 | gp3 => exact .inr h
  | _ => exact .inr (.inr h)

/-- The instructions that read `AR` (R21). -/
def addressReaders : List Instr := [.memrd, .memwr, .inca, .deca, .jmp, .jz, .jal]

theorem readBy_of_mem_addressRoles {c : Config} {i : Instr} {r : Role} (hi : i ∈ addressReaders)
    (hr : r ∈ addressRoles) : ReadBy c i r := by
  simp only [addressRoles, List.mem_cons, List.not_mem_nil, or_false] at hr
  rcases hr with rfl | rfl | rfl | rfl <;> exact .inr (.inl hi)

/-! ### Another value in one slot -/

/-- An operation leads from `s` to `t`, and with `v` in slot `k` it leads to `t'`: either it overwrites the slot alike, or it
leaves the slot alone and is the same otherwise. -/
def KeptOrOverwritten (k v : Nib) (s t t' : State) : Prop :=
  t' = t ∨ (t.readSlot k = s.readSlot k ∧ t' = t.writeSlot k v)

section
variable {k v : Nib} {s t t' : State} (h : KeptOrOverwritten k v s t t')
include h

theorem KeptOrOverwritten.writeSlot (d w : Nib) : KeptOrOverwritten k v s (t.writeSlot d w) (t'.writeSlot d w) := by
  obtain rfl | ⟨hkept, rfl⟩ := h
  · exact .inl rfl
  · by_cases hd : k = d
    · subst hd
      exact .inl (State.writeSlot_writeSlot_self t k v w)
    · exact .inr ⟨(State.readSlot_writeSlot_ne t w hd).trans hkept, State.writeSlot_comm t v w hd⟩

theorem KeptOrOverwritten.slotOf (r : Role) : t'.slotOf r = t.slotOf r := by
  obtain rfl | ⟨-, rfl⟩ := h <;> rfl

theorem KeptOrOverwritten.writeRole (r : Role) (w : Nib) :
    KeptOrOverwritten k v s (t.writeRole r w) (t'.writeRole r w) := by
  rw [State.writeRole_def t', h.slotOf r]
  exact h.writeSlot _ w

theorem KeptOrOverwritten.setAr (a : Addr) : KeptOrOverwritten k v s (t.setAr a) (t'.setAr a) :=
  (((h.writeRole .ad0 _).writeRole .ad1 _).writeRole .ad2 _).writeRole .ad3 _

theorem KeptOrOverwritten.setDataByte (b : Byte) : KeptOrOverwritten k v s (t.setDataByte b) (t'.setDataByte b) :=
  (h.writeRole .mlo _).writeRole .mhi _

theorem KeptOrOverwritten.setPc (a : Addr) : KeptOrOverwritten k v s (t.setPc a) (t'.setPc a) := by
  obtain rfl | ⟨hkept, rfl⟩ := h
  · exact .inl rfl
  · exact .inr ⟨hkept, rfl⟩

theorem KeptOrOverwritten.storeByte (a : Addr) (b : Byte) :
    KeptOrOverwritten k v s (t.storeByte a b) (t'.storeByte a b) := by
  obtain rfl | ⟨hkept, rfl⟩ := h
  · exact .inl rfl
  · exact .inr ⟨hkept, rfl⟩

end

/-- With another value in a register that the "read by" column of R21 does not give it, a well-formed instruction computes
the same: its operands are read from other roles. -/
theorem exec_writeRole_of_not_readBy {i : Instr} {s t : State} {r : Role} (v : Nib) (hi : i.wellFormed = true)
    (hw : s.config.wf = true) (h : exec i s = .next t) (hr : ¬ ReadBy s.config i r) :
    ∃ t', exec i (s.writeRole r v) = .next t' ∧ KeptOrOverwritten (s.slotOf r) v s t t' := by
  have hstart : KeptOrOverwritten (s.slotOf r) v s s (s.writeRole r v) := .inr ⟨rfl, rfl⟩
  have hread {q : Role} (hq : ReadBy s.config i q) : (s.writeRole r v).readRole q = s.readRole q :=
    State.readRole_writeRole_ne hw v fun e => hr (e ▸ hq)
  have har (ha : i ∈ addressReaders) : (s.writeRole r v).ar = s.ar :=
    State.ar_congr fun q hq => hread (readBy_of_mem_addressRoles ha hq)
  cases i with
  | ldi n => cases h; exact ⟨_, exec_ldi n _, hstart.writeRole .imm n⟩
  | movalu d =>
    have hvalue : (s.writeRole r v).aluValue = s.aluValue :=
      have halu : ∃ e, Instr.movalu d = .movalu e := ⟨d, rfl⟩
      State.aluValue_congr (hread (.inr (.inl halu))) (hread (.inr (.inl halu))) (hread (.inr (.inl halu))) rfl
    cases h
    exact ⟨_, exec_movalu d _, hvalue ▸ hstart.writeSlot d _⟩
  | mov d src =>
    have hsrc : src ≠ s.slotOf r := fun e => hr (MovesFrom.readBy hi ⟨d, congrArg (Instr.mov d) e⟩)
    have hvalue : (s.writeRole r v).readSlot src = s.readSlot src := State.readSlot_writeSlot_ne s v hsrc
    cases h
    exact ⟨_, exec_mov d src _, hvalue ▸ hstart.writeSlot d _⟩
  | memrd =>
    cases h
    refine ⟨_, exec_memrd _, ?_⟩
    rw [har (by decide)]
    exact hstart.setDataByte _
  | memwr =>
    have hdata : (s.writeRole r v).dataByte = s.dataByte :=
      State.dataByte_congr (hread (.inr (.inl rfl))) (hread (.inr (.inl rfl)))
    cases h
    refine ⟨_, exec_memwr _, ?_⟩
    rw [har (by decide), hdata, State.writeRole_writeGuard]
    split
    · exact hstart.storeByte _ _
    · exact hstart
  | inca | deca =>
    cases h
    refine ⟨_, rfl, ?_⟩
    rw [har (by decide)]
    exact hstart.setAr _
  | jmp =>
    cases h
    refine ⟨_, exec_jmp _, ?_⟩
    rw [har (by decide)]
    exact hstart.setPc _
  | jz =>
    have hctl : (s.writeRole r v).readRole .ctl = s.readRole .ctl := hread (.inr (.inl rfl))
    rw [exec_jz] at h
    cases h
    refine ⟨_, exec_jz _, ?_⟩
    rw [har (by decide), hctl]
    split
    · exact hstart.setPc _
    · exact hstart
  | jal =>
    rw [exec_jal] at h
    cases h
    refine ⟨_, exec_jal _, ?_⟩
    rw [har (by decide), State.writeRole_config, State.writeRole_pc]
    split
    · exact (hstart.setPc _).setAr _
    · exact hstart.setPc _
  | brk => exact absurd (Dumps.readBy (.inl rfl) r) hr
  | halt => exact absurd (Dumps.readBy (.inr rfl) r) hr
  | cmd7 | cmd8 | cmd9 | cmd10 | cmd11 | cmd12 | cmd13 => cases h; exact ⟨_, rfl, hstart⟩

end Sys2Proof.Machine
end

section
/-! The statement about the access table (10_state.md section 1, R21). -/

namespace Sys2Proof.Machine

/-- Settles O14: the "written by" column is `exec_readRole_of_not_writtenBy`, the "read by" column
`exec_writeRole_of_not_readBy`. -/
theorem registerAccessTable : Obligations.RegisterAccessTable := by
  refine fun i s t hi hw h => ⟨fun r hchange => ?_, fun r v hr => ?_⟩
  · by_contra hnot
    exact hchange (exec_readRole_of_not_writtenBy hi hw h hnot)
  · have hslot : t.slotOf r = s.slotOf r := congrArg (fun c => c.regMap.index r) (exec_frame h).config
    obtain ⟨t', h', rfl | ⟨hkept, rfl⟩⟩ := exec_writeRole_of_not_readBy v hi hw h hr
    · exact ⟨t', h', fun _ _ => rfl, rfl, fun _ => rfl, ⟨fun _ => rfl, rfl, rfl, rfl⟩, .inl rfl⟩
    · refine ⟨_, h', State.writeSlot_regsSameBut t _ v, rfl, State.writeSlot_memorySame t _ v,
        State.writeSlot_restSame t _ v, .inr ⟨?_, ?_⟩⟩
      · rw [State.readRole_def, hslot, hkept, State.readRole_def]
      · rw [← hslot]
        exact State.readRole_writeRole_self t r v

end Sys2Proof.Machine
end

section
/-! SUPPORT. Instances that agree role by role read the same operands, and agree again after the same operation on roles. -/

namespace Sys2Proof.Machine.RoleEquivalent

section
variable {s t : State} (h : RoleEquivalent s t)
include h

/-! ### The operands -/

theorem ar : t.ar = s.ar := State.ar_congr fun r _ => h.roles r

theorem dataByte : t.dataByte = s.dataByte := State.dataByte_congr (h.roles .mlo) (h.roles .mhi)

theorem aluValue : t.aluValue = s.aluValue :=
  State.aluValue_congr (h.roles .alua) (h.roles .alub) (h.roles .aluop) h.aluRom

theorem memByte (a : Addr) : t.memByte a = s.memByte a := congrArg (Memory.read · a.toNat) h.mem

theorem writeGuard (a : Addr) : t.writeGuard a = s.writeGuard a := by
  rw [State.writeGuard, State.writeGuard, h.guard]

/-! ### The operations -/

theorem writeRole (r : Role) (v : Nib) : RoleEquivalent (s.writeRole r v) (t.writeRole r v) where
  leftConfig := h.leftConfig
  rightConfig := h.rightConfig
  roles q := by
    by_cases hq : q = r
    · rw [hq, State.readRole_writeRole_self, State.readRole_writeRole_self]
    · rw [State.readRole_writeRole_ne h.rightConfig v hq, State.readRole_writeRole_ne h.leftConfig v hq, h.roles q]
  guard := h.guard
  linkMode := h.linkMode
  pc := h.pc
  halted := h.halted
  mem := h.mem
  aluRom := h.aluRom
  events := h.events

theorem setAr (v : Addr) : RoleEquivalent (s.setAr v) (t.setAr v) :=
  (((h.writeRole .ad0 _).writeRole .ad1 _).writeRole .ad2 _).writeRole .ad3 _

theorem setDataByte (b : Byte) : RoleEquivalent (s.setDataByte b) (t.setDataByte b) :=
  (h.writeRole .mlo _).writeRole .mhi _

theorem setPc (a : Addr) : RoleEquivalent (s.setPc a) (t.setPc a) :=
  { h with pc := rfl }

theorem storeByte (a : Addr) (v : Byte) : RoleEquivalent (s.storeByte a v) (t.storeByte a v) :=
  { h with mem := congrArg (Memory.write · a.toNat v) h.mem }

/-- The two events may list the slots in different orders. -/
theorem emit (e e' : Event) : RoleEquivalent (s.emit e) (t.emit e') :=
  { h with events := by rw [State.emit_events, State.emit_events, List.length_append, List.length_append, h.events]; rfl }

theorem setHalted : RoleEquivalent s.setHalted t.setHalted :=
  { h with halted := rfl }

/-! ### The instructions -/

/-- Every LDI and command acts on roles only (R70). -/
theorem exec_command {i : Instr} (halu : ∀ d, i ≠ .movalu d) (hmov : ∀ d src, i ≠ .mov d src) :
    ∃ s' t', exec i s = .next s' ∧ exec i t = .next t' ∧ RoleEquivalent s' t' := by
  cases i with
  | ldi n => exact ⟨_, _, exec_ldi n s, exec_ldi n t, h.writeRole .imm n⟩
  | movalu d => exact absurd rfl (halu d)
  | mov d src => exact absurd rfl (hmov d src)
  | memrd =>
    refine ⟨_, _, exec_memrd s, exec_memrd t, ?_⟩
    rw [h.ar, h.memByte]
    exact h.setDataByte _
  | memwr =>
    refine ⟨_, _, exec_memwr s, exec_memwr t, ?_⟩
    rw [h.ar, h.dataByte, h.writeGuard]
    split
    · exact h.storeByte _ _
    · exact h
  | inca | deca =>
    refine ⟨_, _, rfl, rfl, ?_⟩
    rw [h.ar]
    exact h.setAr _
  | jmp =>
    refine ⟨_, _, exec_jmp s, exec_jmp t, ?_⟩
    rw [h.ar]
    exact h.setPc _
  | jz =>
    refine ⟨_, _, exec_jz s, exec_jz t, ?_⟩
    rw [h.ar, h.roles .ctl]
    split
    · exact h.setPc _
    · exact h
  | jal =>
    refine ⟨_, _, exec_jal s, exec_jal t, ?_⟩
    rw [h.ar, h.linkMode, h.pc]
    split
    · exact (h.setPc _).setAr _
    · exact h.setPc _
  | brk => exact ⟨_, _, exec_brk s, exec_brk t, h.emit _ _⟩
  | halt => exact ⟨_, _, exec_halt s, exec_halt t, (h.emit _ _).setHalted⟩
  | cmd7 | cmd8 | cmd9 | cmd10 | cmd11 | cmd12 | cmd13 => exact ⟨s, t, rfl, rfl, h⟩

end

end Sys2Proof.Machine.RoleEquivalent
end

section
/-! The statement about the register map (30_encoding.md section 4; 92_eei_decisions.md D1). -/

namespace Sys2Proof.Machine

/-- Settles O43: a command names its roles itself, and a MOV or MOVALU between roles writes one role with an operand that the
two instances read alike. -/
theorem behaviourDependsOnRolesOnly : Obligations.BehaviourDependsOnRolesOnly := by
  refine fun s t h => ⟨fun i => h.exec_command, fun r => ?_, fun r q => ?_⟩
  · refine ⟨_, _, exec_movalu _ s, exec_movalu _ t, ?_⟩
    rw [h.aluValue]
    exact h.writeRole r s.aluValue
  · have hread : t.readSlot (t.slotOf q) = s.readSlot (s.slotOf q) := h.roles q
    refine ⟨_, _, exec_mov _ _ s, exec_mov _ _ t, ?_⟩
    rw [hread]
    exact h.writeRole r (s.readSlot (s.slotOf q))

end Sys2Proof.Machine
end
